-- ==== Sys2Proof/Word.lean ====
section
/-! DEFINITION. The value types of the machine (spec 00_scope.md R3, R4; 10_state.md R10).

A Word is "an unsigned 32-bit integer, the machine's only value type". Bits are numbered 31 (top) down to 0 (low).
A byte is what the two I/O ports carry (45_io.md R115, R116). -/

namespace Sys2Proof

/-- A Word: 32 bits, read as an unsigned integer (R4). -/
abbrev Word := BitVec 32

/-- A byte of the I/O ports: 0 to 255 (45_io.md R117). -/
abbrev Byte := BitVec 8

/-- A register index: three bits of an instruction, so always 0 to 7 (10_state.md R13). -/
abbrev RegIdx := Fin 8

/-- The immediate of the immediate-load layout: 25 bits, unsigned (30_encoding.md R62, R65). -/
abbrev Imm25 := BitVec 25

/-- The Word with every bit 1, 2^32 - 1. -/
abbrev allOnes : Word := 0xFFFFFFFF#32

end Sys2Proof
end

