-- ==== Sys2Proof/Syntax.lean ====
section
/-! DEFINITION. The instructions: one constructor per row of spec/opcode_table.json, each with exactly the operands it
uses (30_encoding.md R71), in field order A, B, C (R72). The fields an instruction does not use are not part of it:
they are ignored by the decoder and written as zero by the encoder (R66, R74). -/

namespace Sys2Proof

/-- The sixteen instructions of the machine (30_encoding.md R64, R72). `inp` is the table's `IN`. -/
inductive Instr where
  /-- `CMOV rA, rB, rC`: if rC is nonzero then rA ← rB (41_data_movement.md R90). -/
  | cmov (a b c : RegIdx)
  /-- `AIDX rA, rB, rC`: rA ← array rB at offset rC (42_array_access.md R95). -/
  | aidx (a b c : RegIdx)
  /-- `AMEND rA, rB, rC`: array rA at offset rB ← rC (42_array_access.md R96). -/
  | amend (a b c : RegIdx)
  /-- `ADD rA, rB, rC` (43_arithmetic_logic.md R101). -/
  | add (a b c : RegIdx)
  /-- `MUL rA, rB, rC` (43_arithmetic_logic.md R102). -/
  | mul (a b c : RegIdx)
  /-- `DIV rA, rB, rC` (43_arithmetic_logic.md R103). -/
  | div (a b c : RegIdx)
  /-- `NAND rA, rB, rC` (43_arithmetic_logic.md R104). -/
  | nand (a b c : RegIdx)
  /-- `HALT` (46_control.md R125). -/
  | halt
  /-- `ALLOC rA, rB`: rA ← new array of rB words (44_allocation.md R110). -/
  | alloc (a b : RegIdx)
  /-- `ABANDON rC`: free array rC (44_allocation.md R111). -/
  | abandon (c : RegIdx)
  /-- `OUT rC`: emit the low byte of rC (45_io.md R115). -/
  | out (c : RegIdx)
  /-- `IN rC`: rC ← input byte, or all ones at end of input (45_io.md R116). -/
  | inp (c : RegIdx)
  /-- `LOADPROG rB, rC`: active ← rB, pc ← rC (46_control.md R126). -/
  | loadprog (b c : RegIdx)
  /-- `LDI rI, imm`: rI ← imm (41_data_movement.md R91). -/
  | ldi (ri : RegIdx) (imm : Imm25)
  /-- `SUB rA, rB, rC` (43_arithmetic_logic.md R105). -/
  | sub (a b c : RegIdx)
  /-- `MOD rA, rB, rC` (43_arithmetic_logic.md R106). -/
  | mod (a b c : RegIdx)
  deriving DecidableEq, Repr

end Sys2Proof
end

