-- ==== Sys2Proof/WellFormed.lean ====
section
/-! DEFINITION. The two layouts of an instruction word as the decoder extracts them, and which field groups are
well formed (30_encoding.md R60 to R63).

An `Instr` is well formed by construction (its operands are 3-bit indices and a 25-bit immediate, 10_state.md R13); what
can be ill formed is a group of extracted fields: the standard layout never carries the immediate-load opcode ("0–15
excluding the immediate-load opcode", R61), and an opcode outside the defined set is no instruction at all (R67). -/

namespace Sys2Proof

/-- The names of the sixteen opcodes: the domain of `OPCODE_MAP` (30_encoding.md R64). -/
inductive Opcode where
  | cmov | aidx | amend | add | mul | div | nand | halt
  | alloc | abandon | out | inp | loadprog | ldi | sub | mod
  deriving DecidableEq, Repr

/-- What the decoder extracts from a Word (30_encoding.md R63): the standard layout, the immediate-load layout, or
`Illegal` for an opcode outside the defined set. -/
inductive Fields where
  | std (op : Opcode) (a b c : RegIdx)
  | imm (ri : RegIdx) (v : Imm25)
  | illegal
  deriving DecidableEq, Repr

/-- Field groups that are an instruction (R61, R67). -/
def Fields.wellFormed : Fields → Bool
  | .std op _ _ _ => op != .ldi
  | .imm _ _ => true
  | .illegal => false

/-- The fields of an instruction, unused ones zero: "treat the unused fields as zero" (30_encoding.md R71, R74). -/
def Instr.fields : Instr → Fields
  | .cmov a b c => .std .cmov a b c
  | .aidx a b c => .std .aidx a b c
  | .amend a b c => .std .amend a b c
  | .add a b c => .std .add a b c
  | .mul a b c => .std .mul a b c
  | .div a b c => .std .div a b c
  | .nand a b c => .std .nand a b c
  | .halt => .std .halt 0 0 0
  | .alloc a b => .std .alloc a b 0
  | .abandon c => .std .abandon 0 0 c
  | .out c => .std .out 0 0 c
  | .inp c => .std .inp 0 0 c
  | .loadprog b c => .std .loadprog 0 b c
  | .ldi ri v => .imm ri v
  | .sub a b c => .std .sub a b c
  | .mod a b c => .std .mod a b c

/-- An instruction is well formed when its fields are (every one is: `Laws/PerInstr.lean`). -/
def Instr.wellFormed (i : Instr) : Bool := i.fields.wellFormed

end Sys2Proof
end

