-- ==== Sys2Proof/Decode.lean ====
section
/-! DEFINITION. The decoder and the encoder (spec 30_encoding.md).

One instruction is one Word (R60): the decoder is a pure, total function of one Word and there is no byte order to
settle (20_memory.md R41, log 22). -/

namespace Sys2Proof

/-- `OPCODE_MAP`: the instruction of each value of bits 31:28, in order from 0 (30_encoding.md R64; the spec's own
decision D1, log 3). The one place where an opcode has a number: the decoder and the encoder both read this list. -/
def opcodeMap : List Opcode :=
  [.cmov, .aidx, .amend, .add, .mul, .div, .nand, .halt,
   .alloc, .abandon, .out, .inp, .loadprog, .ldi, .sub, .mod]

/-- The opcode numbered `v`, if the defined set has one (R64, R67). -/
def opcodeAt (v : BitVec 4) : Option Opcode := opcodeMap[v.toNat]?

/-- The number of an opcode (R64). -/
def opcodeNum (op : Opcode) : BitVec 4 := BitVec.ofNat 4 (opcodeMap.idxOf op)

/-- `OP = w[31:28]` (R61, R62). -/
def fieldOP (w : Word) : BitVec 4 := w.extractLsb' 28 4

/-- `A = w[8:6]` (R61). -/
def fieldA (w : Word) : RegIdx := (w.extractLsb' 6 3).toFin

/-- `B = w[5:3]` (R61). -/
def fieldB (w : Word) : RegIdx := (w.extractLsb' 3 3).toFin

/-- `C = w[2:0]` (R61). -/
def fieldC (w : Word) : RegIdx := (w.extractLsb' 0 3).toFin

/-- `RI = w[27:25]` (R62). -/
def fieldRI (w : Word) : RegIdx := (w.extractLsb' 25 3).toFin

/-- `IMM = w[24:0]` (R62). -/
def fieldIMM (w : Word) : Imm25 := w.extractLsb' 0 25

/-- The decoder of R63: the opcode alone selects the layout; bits 27:9 of a standard word are not looked at (R66). -/
def extractFields (w : Word) : Fields :=
  match opcodeAt (fieldOP w) with
  | none => .illegal
  | some .ldi => .imm (fieldRI w) (fieldIMM w)
  | some op => .std op (fieldA w) (fieldB w) (fieldC w)

/-- The instruction a field group stands for; the register fields it does not use are dropped (R66, R71). -/
def instrOfFields : Fields → Option Instr
  | .std .cmov a b c => some (.cmov a b c)
  | .std .aidx a b c => some (.aidx a b c)
  | .std .amend a b c => some (.amend a b c)
  | .std .add a b c => some (.add a b c)
  | .std .mul a b c => some (.mul a b c)
  | .std .div a b c => some (.div a b c)
  | .std .nand a b c => some (.nand a b c)
  | .std .halt _ _ _ => some .halt
  | .std .alloc a b _ => some (.alloc a b)
  | .std .abandon _ _ c => some (.abandon c)
  | .std .out _ _ c => some (.out c)
  | .std .inp _ _ c => some (.inp c)
  | .std .loadprog _ b c => some (.loadprog b c)
  | .std .ldi _ _ _ => none
  | .std .sub a b c => some (.sub a b c)
  | .std .mod a b c => some (.mod a b c)
  | .imm ri v => some (.ldi ri v)
  | .illegal => none

/-- Why a Word is no instruction. -/
inductive DecodeError where
  /-- "any value outside the defined set is a fault (`IllegalOpcode`)" (30_encoding.md R67). Unreachable under R64. -/
  | illegalOpcode
  deriving DecidableEq, Repr

/-- Decode one Word (R63, R82). -/
def decode (w : Word) : Except DecodeError Instr :=
  match instrOfFields (extractFields w) with
  | some i => .ok i
  | none => .error .illegalOpcode

/-- `encode_std(OP, A, B, C) = (OP << 28) | (A << 6) | (B << 3) | C`, bits 27:9 zero (R74). -/
def encodeStd (op : Opcode) (a b c : RegIdx) : Word :=
  ((opcodeNum op).setWidth 32 <<< 28) ||| (BitVec.ofNat 32 a.val <<< 6) ||| (BitVec.ofNat 32 b.val <<< 3)
    ||| BitVec.ofNat 32 c.val

/-- `encode_imm(RI, IMM) = (OPCODE(LDI) << 28) | (RI << 25) | IMM` (R74). -/
def encodeImm (ri : RegIdx) (v : Imm25) : Word :=
  ((opcodeNum .ldi).setWidth 32 <<< 28) ||| (BitVec.ofNat 32 ri.val <<< 25) ||| v.setWidth 32

/-- The Word of an instruction, unused fields zero (R74). -/
def encode : Instr → Word
  | .cmov a b c => encodeStd .cmov a b c
  | .aidx a b c => encodeStd .aidx a b c
  | .amend a b c => encodeStd .amend a b c
  | .add a b c => encodeStd .add a b c
  | .mul a b c => encodeStd .mul a b c
  | .div a b c => encodeStd .div a b c
  | .nand a b c => encodeStd .nand a b c
  | .halt => encodeStd .halt 0 0 0
  | .alloc a b => encodeStd .alloc a b 0
  | .abandon c => encodeStd .abandon 0 0 c
  | .out c => encodeStd .out 0 0 c
  | .inp c => encodeStd .inp 0 0 c
  | .loadprog b c => encodeStd .loadprog 0 b c
  | .ldi ri v => encodeImm ri v
  | .sub a b c => encodeStd .sub a b c
  | .mod a b c => encodeStd .mod a b c

/-- The decoder's output ports (R69): all fields extracted in parallel, `isImm` telling which group is meaningful
(R70). -/
structure DecoderPorts where
  opcode : BitVec 4
  isImm : Bool
  a : RegIdx
  b : RegIdx
  c : RegIdx
  immReg : RegIdx
  immVal : Imm25
  illegal : Bool
  deriving DecidableEq, Repr

/-- The decoder as hardware: combinational functions of `word` alone (R69, D14). -/
def decoderPorts (w : Word) : DecoderPorts where
  opcode := fieldOP w
  isImm := opcodeAt (fieldOP w) == some .ldi
  a := fieldA w
  b := fieldB w
  c := fieldC w
  immReg := fieldRI w
  immVal := fieldIMM w
  illegal := (opcodeAt (fieldOP w)).isNone

/-- What the decoder reads from an instruction whose bits are `w`, numbered as spec/opcode_table.json numbers them.
Every instruction is one 32-bit Word (R60), so the Word is the number itself. -/
def decodeTableWord (nbits w : Nat) : Option Instr :=
  if nbits ≤ 32 ∧ w < 2 ^ 32 then (decode (BitVec.ofNat 32 w)).toOption else none

end Sys2Proof
end

