-- ==== Sys2Proof/Machine/Sparse.lean ====
section
/-! DEFINITION. Finite tables as lists of (key, value) pairs, keys strictly rising: the one representation of array
contents and of the identifier table (log 7). -/

namespace Sys2Proof.Machine

/-- The value listed under `k`, if any. -/
def sparseFind {α : Type} (k : Nat) : List (Nat × α) → Option α
  | [] => none
  | (j, v) :: l => if j = k then some v else sparseFind k l

/-- List `v` under `k`, in its place, instead of what `k` listed before. -/
def sparseInsert {α : Type} (k : Nat) (v : α) : List (Nat × α) → List (Nat × α)
  | [] => [(k, v)]
  | (j, u) :: l =>
    if k < j then (k, v) :: (j, u) :: l
    else if j = k then (k, v) :: l
    else (j, u) :: sparseInsert k v l

/-- List nothing under `k`. -/
def sparseErase {α : Type} (k : Nat) : List (Nat × α) → List (Nat × α)
  | [] => []
  | (j, u) :: l => if j = k then sparseErase k l else (j, u) :: sparseErase k l

/-- Keys strictly rising. -/
def sparseSorted {α : Type} : List (Nat × α) → Bool
  | [] => true
  | (j, _) :: l => l.all (fun e => decide (j < e.1)) && sparseSorted l

end Sys2Proof.Machine
end

