-- ==== Sys2Proof/Config.lean ====
section
/-! DEFINITION. What one build of the machine fixes: the OPEN parameters of spec 00_scope.md R3 (section 4) and
92_eei_decisions.md D8, D9, and the register reset value `REG_RESET` (D3).

The two OPEN parameters are carried by State as plain data that no instruction writes, so that every statement about
every state is a statement about every build (log 8). `OPCODE_MAP` stands in Decode.lean. -/

namespace Sys2Proof

/-- The OPEN parameters of a build (00_scope.md R3). -/
structure Config where
  /-- `ID_MAX`: the largest identifier the allocator can produce (20_memory.md R51, D8). -/
  idMax : Word
  /-- `HEAP_CAPACITY_WORDS`: total words of allocated arrays, array 0 not counted; `none` is unbounded
  (20_memory.md R50, D9). -/
  capacity : Option Nat
  deriving DecidableEq, Repr

/-- The spec's default parameters: `ID_MAX` = 2^32 - 1, capacity unbounded (00_scope.md R3). -/
def Config.standard : Config := { idMax := allOnes, capacity := none }

/-- `ID_MAX` is at least 1: "1 ≤ `ID_MAX` ≤ 2^32 − 1" (00_scope.md R3). -/
def Config.wf (cfg : Config) : Bool := cfg.idMax != 0#32

/-- `REG_RESET`: the value of every register after reset (00_scope.md R3, 10_state.md R25; the spec's own decision
D3, log 2). -/
def regReset : Word := 0#32

end Sys2Proof
end

