-- ==== Sys2Proof/Machine/State.lean ====
section
/-! DEFINITION. The state of one VM instance as plain data: the record of 10_state.md R27, and beside it the parameters
of the run (`cfg`, `env`), which the spec says are not state and which no instruction writes (logs 8 to 11). -/

namespace Sys2Proof.Machine

/-- The fault reasons of 60_exceptions.md R130, in the order of their codes 1 to 7. A fault of the machine is TAKEN: it
sets `status` and the step answers a next state (R137, log 6). -/
inductive Reason where
  /-- "decoded opcode value has no defined instruction": decode; unreachable (R131). -/
  | illegalOpcode
  /-- identifier 0 where a heap array was required, or an identifier not allocated (R132). -/
  | invalidArray
  /-- "array offset ≥ allocated length" (R133). -/
  | outOfBounds
  /-- "divisor or modulus is zero" (R134). -/
  | divisionByZero
  /-- `pc ≥ len(active)` at the fetch (R135, C4). -/
  | programCounterOutOfBounds
  /-- every identifier 1 to `ID_MAX` is allocated (R136). -/
  | outOfIdentifiers
  /-- a finite capacity would be exceeded (R145). -/
  | outOfMemory
  deriving DecidableEq, Repr

/-- The status (10_state.md R16), with `idle` between reset and `start` (R17, D11; log 1). -/
inductive Status where
  | idle
  | running
  | halted
  | faulted (reason : Reason)
  deriving DecidableEq, Repr

/-- One array: its length, a Word (20_memory.md R31), and its elements. An element not listed is 0; the canonical form
lists offsets strictly rising, below the length, and no zero (`Arr.wf`, log 7). -/
structure Arr where
  len : Word
  cells : List (Nat × Word)
  deriving DecidableEq, Repr

/-- An array of no Words. -/
def Arr.empty : Arr := { len := 0#32, cells := [] }

/-- A nonzero identifier that ALLOC has returned: allocated now, or freed (20_memory.md R32). -/
inductive Slot where
  | allocated (arr : Arr)
  | freed
  deriving DecidableEq, Repr

/-- `idstate(id)` of 10_state.md R18. -/
inductive IdState where
  | program (arr : Arr)
  | unallocated
  | allocated (arr : Arr)
  | freed
  deriving DecidableEq, Repr

/-- The heap (10_state.md R18): array 0, and the identifiers ever produced, in rising order; an identifier not listed is
`unallocated`. -/
structure Heap where
  prog : Arr
  ids : List (Nat × Slot)
  deriving DecidableEq, Repr

/-- The heap right after reset: array 0 empty, every other identifier unallocated (70_reset_and_hazards.md R150). -/
def Heap.empty : Heap := { prog := Arr.empty, ids := [] }

/-- One transaction of the host while the machine is held after reset (70_reset_and_hazards.md R152, R153). A word and
`start` are different transactions here. R153 does not say whether the word of a transaction that asserts `load_valid` and
`start` together is written; the model has no such transaction: DESIGN CHOICE (log 26). -/
inductive LoadAct where
  /-- the port is quiet in this transaction -/
  | quiet
  /-- `load_valid` with `load_data`: the next word of array 0 -/
  | word (w : Word)
  /-- the host fixes the input byte sequence (R152: "before the start"; log 25) -/
  | input (bytes : List Byte)
  /-- `start`: the load ends and the machine runs -/
  | start
  deriving DecidableEq, Repr

/-- What the host does, as plain data: a parameter of the run, not state of the machine (10_state.md R27). Every list is
what is still to come, next first; an exhausted list stands for its quiet default. -/
structure Env where
  /-- the level of the reset input at the coming steps (D16; exhausted: not asserted) -/
  resetIn : List Bool
  /-- the load port's coming transactions while the machine is held (exhausted: the host does nothing) -/
  load : List LoadAct
  /-- the input byte sequence (10_state.md R22) -/
  input : List Byte
  /-- `in_valid` in the coming transactions of IN (45_io.md R120; exhausted: always 1) -/
  inValid : List Bool
  /-- `out_ready` in the coming transactions of OUT (45_io.md R121; exhausted: always 1) -/
  outReady : List Bool
  deriving DecidableEq, Repr

/-- A host that never asserts reset, loads nothing, supplies no input and is always ready. -/
def Env.quiet : Env := { resetIn := [], load := [], input := [], inValid := [], outReady := [] }

/-- The complete state (10_state.md R27). -/
structure State where
  /-- the eight general registers (R10) -/
  x : Vector Word 8
  /-- the program counter, a word offset into the active array (R14) -/
  pc : Word
  /-- the active-array identifier (R15) -/
  active : Word
  /-- the status (R16, R17) -/
  status : Status
  /-- the heap (R18) -/
  heap : Heap
  /-- bytes of input consumed (R22) -/
  inPos : Nat
  /-- bytes emitted, in order (R22) -/
  out : List Byte
  /-- the parameters of the build (00_scope.md R3) -/
  cfg : Config
  /-- what the host does (parameters of the run) -/
  env : Env
  deriving DecidableEq, Repr

/-- Host-level stops of a step. A fault of the MACHINE (60_exceptions.md R130) is never one of these: it is taken, as a
next state with `status = faulted`. No instruction raises one of these. -/
inductive Fault where
  /-- Raised by the load port (`loadTransaction`) when the host hands over a word after array 0 has 2^32 - 1 words, more
  than `PROGRAM_LEN` can say (20_memory.md R31, D12); the spec gives no behaviour for it. Safe (log 12). -/
  | loadOverrun
  deriving DecidableEq, Repr

/-- Refusals of a step. -/
inductive Refusal where
  /-- Raised by exec's arm of an instruction that has no meaning yet; no arm raises it now. Safe. -/
  | notModelled (mnemonic : String)
  deriving DecidableEq, Repr

/-- The machine right after reset (70_reset_and_hazards.md R150; values of 10_state.md R25): every register 0, `pc` 0,
`active` 0, array 0 empty, every other identifier unallocated, nothing consumed, nothing emitted, and held (`idle`)
until the host loads array 0 and starts it (R153; log 1). The parameters are the spec's defaults. -/
def State.reset : State where
  x := Vector.replicate 8 regReset
  pc := 0#32
  active := 0#32
  status := .idle
  heap := Heap.empty
  inPos := 0
  out := []
  cfg := Config.standard
  env := Env.quiet

end Sys2Proof.Machine
end

