-- ==== Sys2Proof/Machine/HeapOps.lean ====
section
/-! DEFINITION. The operations of the heap (spec 20_memory.md): identifier states, the checks of a data access, read,
write, allocate, abandon and fetch. Each answers its result or the reason it raises, and a raise changes nothing, so
that the instruction built on it is precise (60_exceptions.md R138). -/

namespace Sys2Proof.Machine

/-- The Word at offset `off`, 0 where nothing is listed ("all elements zero-initialized", 20_memory.md R36). -/
def Arr.read (a : Arr) (off : Word) : Word := (sparseFind off.toNat a.cells).getD 0

/-- Replace the Word at offset `off` by `v` (20_memory.md R37); writing 0 unlists the offset, which keeps the canonical
form. -/
def Arr.write (a : Arr) (off v : Word) : Arr :=
  { a with cells := if v = 0#32 then sparseErase off.toNat a.cells else sparseInsert off.toNat v a.cells }

/-- An array of `n` Words, all 0 (20_memory.md R38). -/
def Arr.zeros (n : Word) : Arr := { len := n, cells := [] }

/-- The array with `v` after its last Word, as the load port writes it (70_reset_and_hazards.md R153); none when the
length is already 2^32 - 1, the largest a Word can say (20_memory.md R31). -/
def Arr.append (a : Arr) (v : Word) : Option Arr :=
  if a.len = allOnes then none else some (({ a with len := a.len + 1#32 } : Arr).write a.len v)

/-- The canonical form of an array: offsets strictly rising and below the length, no listed zero. -/
def Arr.wf (a : Arr) : Bool :=
  sparseSorted a.cells && a.cells.all (fun e => decide (e.1 < a.len.toNat) && e.2 != 0#32)

/-- The canonical form of one entry of the identifier table. -/
def Slot.wf : Slot → Bool
  | .allocated a => a.wf
  | .freed => true

/-- The canonical form of the heap: array 0 canonical; identifiers strictly rising, nonzero Words, each array
canonical. -/
def Heap.wf (h : Heap) : Bool :=
  h.prog.wf && sparseSorted h.ids && h.ids.all (fun e => decide (0 < e.1) && decide (e.1 < 2 ^ 32) && e.2.wf)

/-- The memory of this machine is its heap (10_state.md R18: "the machine's only memory"). -/
abbrev Memory := Heap

/-- The memory keeps its one canonical form. -/
abbrev Memory.wf (m : Memory) : Bool := Heap.wf m

/-- `idstate(id)` (10_state.md R18, 20_memory.md R32). -/
def Heap.idState (h : Heap) (id : Word) : IdState :=
  if id = 0#32 then .program h.prog
  else match sparseFind id.toNat h.ids with
    | none => .unallocated
    | some (.allocated a) => .allocated a
    | some .freed => .freed

/-- The array `id` denotes now, if it is present (20_memory.md R33). -/
def Heap.arr? (h : Heap) (id : Word) : Option Arr :=
  match h.idState id with
  | .program a => some a
  | .allocated a => some a
  | .unallocated => none
  | .freed => none

/-- `present(id)` (20_memory.md R33). -/
def Heap.present (h : Heap) (id : Word) : Bool := (h.arr? id).isSome

/-- Put array 0. -/
def Heap.setProg (h : Heap) (a : Arr) : Heap := { h with prog := a }

/-- Put an entry into the identifier table. -/
def Heap.putSlot (h : Heap) (id : Word) (sl : Slot) : Heap := { h with ids := sparseInsert id.toNat sl h.ids }

/-- Put an array under an identifier: array 0 for 0, else an allocated array. -/
def Heap.setArr (h : Heap) (id : Word) (a : Arr) : Heap :=
  if id = 0#32 then h.setProg a else h.putSlot id (.allocated a)

/-- One Word of memory as an observer sees it: the Word at `(id, off)`, or nothing where no such address exists. -/
def Heap.peek (h : Heap) (id off : Word) : Option Word :=
  match h.arr? id with
  | none => none
  | some a => if off < a.len then some (a.read off) else none

/-- The checks of a data access, in their order (20_memory.md R35): `InvalidArray`, then `OutOfBounds`. Identifier 0 is
the program array (R34, C1; log 14). -/
def Heap.checked (h : Heap) (id off : Word) : Except Reason Arr :=
  match h.arr? id with
  | none => .error .invalidArray
  | some a => if a.len ≤ off then .error .outOfBounds else .ok a

/-- `MemRead(id, off)` (20_memory.md R36). -/
def Heap.memRead (h : Heap) (id off : Word) : Except Reason Word :=
  match h.checked id off with
  | .error r => .error r
  | .ok a => .ok (a.read off)

/-- `MemWrite(id, off, v)` (20_memory.md R37). -/
def Heap.memWrite (h : Heap) (id off v : Word) : Except Reason Heap :=
  match h.checked id off with
  | .error r => .error r
  | .ok a => .ok (h.setArr id (a.write off v))

/-- The smallest number from `k` on that the table does not list as allocated: a scan of the rising identifiers
(20_memory.md R38, D7; log 17). -/
def firstFree (k : Nat) : List (Nat × Slot) → Nat
  | [] => k
  | (j, .freed) :: l => if j < k then firstFree k l else k
  | (j, .allocated _) :: l => if j < k then firstFree k l else if j = k then firstFree (k + 1) l else k

/-- The words of one entry of the identifier table. -/
def Slot.words : Slot → Nat
  | .allocated a => a.len.toNat
  | .freed => 0

/-- `used_words`: the sum of `len(id)` over the allocated identifiers, array 0 not counted (20_memory.md R38). -/
def Heap.usedWords (h : Heap) : Nat := (h.ids.map (fun e => e.2.words)).sum

/-- `used_words + n` fits the build's capacity (20_memory.md R38, R50; log 8). -/
def Heap.fits (h : Heap) (cfg : Config) (n : Word) : Bool :=
  match cfg.capacity with
  | none => true
  | some c => decide (h.usedWords + n.toNat ≤ c)

/-- `HeapAllocate(n)` (20_memory.md R38): `OutOfIdentifiers` first, then `OutOfMemory` (D19). -/
def Heap.allocate (h : Heap) (cfg : Config) (n : Word) : Except Reason (Word × Heap) :=
  let id := firstFree 1 h.ids
  if cfg.idMax.toNat < id then .error .outOfIdentifiers
  else if h.fits cfg n then .ok (BitVec.ofNat 32 id, h.putSlot (BitVec.ofNat 32 id) (.allocated (Arr.zeros n)))
  else .error .outOfMemory

/-- `HeapAbandon(id)` (20_memory.md R39): identifier 0 and an identifier not allocated raise `InvalidArray`; the active
array is not refused (D5; log 16). -/
def Heap.abandon (h : Heap) (id : Word) : Except Reason Heap :=
  match h.idState id with
  | .allocated _ => .ok (h.putSlot id .freed)
  | .program _ => .error .invalidArray
  | .unallocated => .error .invalidArray
  | .freed => .error .invalidArray

/-- The fetch access (20_memory.md R40, 40_execution_cycle.md R81): the Word `MemRead` would return, with the fetch's own
faults. -/
def Heap.fetch (h : Heap) (active pc : Word) : Except Reason Word :=
  match h.arr? active with
  | none => .error .invalidArray
  | some a => if a.len ≤ pc then .error .programCounterOutOfBounds else .ok (a.read pc)

end Sys2Proof.Machine
end

