-- ==== Sys2Proof/Machine/Ops.lean ====
section
/-! DEFINITION. The named operations over the state: the register file, the program counter, taking a fault and leaving
it (reset), and the transactions of the host's ports (spec R5, 10_state.md, 45_io.md, 60_exceptions.md,
70_reset_and_hazards.md). -/

namespace Sys2Proof.Machine

/-- Register read `x[i]` (10_state.md R11). -/
def State.reg (s : State) (i : RegIdx) : Word := s.x[i]

/-- Register write `x[i] <- v` (10_state.md R12). -/
def State.setReg (s : State) (i : RegIdx) (v : Word) : State := { s with x := s.x.set i v }

/-- `pc <- pc + 1` (40_execution_cycle.md R84). After a successful fetch the sum does not wrap (10_state.md R14;
log 20). -/
def State.advance (s : State) : State := { s with pc := s.pc + 1#32 }

/-- The state with another heap. -/
def State.setHeap (s : State) (h : Heap) : State := { s with heap := h }

/-- `active <- id; pc <- t` (46_control.md R126). -/
def State.jump (s : State) (id t : Word) : State := { s with active := id, pc := t }

/-- `status <- Halted` (40_execution_cycle.md R85). -/
def State.halt (s : State) : State := { s with status := .halted }

/-! ### Taking a fault, and the only way out of one -/

/-- Fault entry (60_exceptions.md R137, 40_execution_cycle.md R86): `status <- Faulted(r)`, everything else as it was:
nothing is saved, no handler is entered, `pc` stays at the faulting instruction. -/
def takeFault (r : Reason) (s : State) : State := { s with status := .faulted r }

/-- The end of an instruction that may raise: its new state, or the fault taken in the state before it ("undo nothing
(nothing was written)", 40_execution_cycle.md R80, R86; 60_exceptions.md R138). -/
def conclude (s : State) : Except Reason State → Host.Outcome State Fault Refusal
  | .ok t => .next t
  | .error r => .next (takeFault r s)

/-- The reset input is asserted in the coming step (70_reset_and_hazards.md R150, D16). -/
def State.resetAsserted (s : State) : Bool := s.env.resetIn.headD false

/-- The coming sample of the reset input is past. -/
def State.tickReset (s : State) : State := { s with env := { s.env with resetIn := s.env.resetIn.tail } }

/-- Reset (70_reset_and_hazards.md R150): every piece of state at its reset value and the machine held. There is no
return from a fault (60_exceptions.md R141): this is the only way out of a terminal state. The build's parameters and
what the host will do are no state and stay (log 11). -/
def State.applyReset (s : State) : State := { State.reset with cfg := s.cfg, env := s.tickReset.env }

/-! ### The output port -/

/-- `out_ready` in this transaction (45_io.md R121; log 10). -/
def State.sinkReady (s : State) : Bool := s.env.outReady.headD true

/-- The transaction on the output port is past. -/
def State.tickOut (s : State) : State := { s with env := { s.env with outReady := s.env.outReady.tail } }

/-- `OutByte(b)`: `out <- out ++ [b]` (45_io.md R117). -/
def State.outByte (s : State) (b : Byte) : State := { s with out := s.out ++ [b] }

/-! ### The input port -/

/-- What the host offers on the input port in this transaction (45_io.md R120): nothing (`in_valid` = 0), the end of
input, or a byte. -/
inductive InOffer where
  | nothing
  | endOfInput
  | byte (b : Byte)
  deriving DecidableEq, Repr

/-- The offer of this transaction (45_io.md R118 to R120; log 9): nothing while the host holds `in_valid` low; else the
byte at `in_pos`, or the end of input when the sequence is exhausted, which is permanent. -/
def State.inOffer (s : State) : InOffer :=
  if s.env.inValid.headD true then
    match s.env.input[s.inPos]? with
    | some b => .byte b
    | none => .endOfInput
  else .nothing

/-- The transaction on the input port is past. -/
def State.tickIn (s : State) : State := { s with env := { s.env with inValid := s.env.inValid.tail } }

/-- `in_take`: the offered byte is consumed, `in_pos <- in_pos + 1` (45_io.md R118). -/
def State.takeByte (s : State) : State := { s with inPos := s.inPos + 1 }

/-! ### The load port -/

/-- The load port's coming transaction is past. -/
def State.tickLoad (s : State) : State := { s with env := { s.env with load := s.env.load.tail } }

/-- One transaction of a held machine (70_reset_and_hazards.md R150, R152, R153): the host does nothing, hands over the
next word of array 0, fixes the input sequence (log 25), or starts the machine. A word beyond the 2^32 - 1 that
`PROGRAM_LEN` can count is the host's error and stops the model (log 12). -/
def loadTransaction (s : State) : Host.Outcome State Fault Refusal :=
  match s.env.load.headD .quiet with
  | .quiet => .next s.tickLoad
  | .word w =>
    match s.heap.prog.append w with
    | some a => .next (s.tickLoad.setHeap (s.heap.setProg a))
    | none => .fault .loadOverrun
  | .input bytes => .next { s.tickLoad with env := { s.tickLoad.env with input := bytes } }
  | .start => .next { s.tickLoad with status := .running }

/-- Array 0 with the given words from its present end on (70_reset_and_hazards.md R152: "its k-th Word the content of
`(0, k)`"); none when there are more than 2^32 - 1. -/
def Arr.appendAll (a : Arr) : List Word → Option Arr
  | [] => some a
  | w :: ws =>
    match a.append w with
    | some a' => a'.appendAll ws
    | none => none

/-- The state at the first cycle after the loader hand-off (10_state.md R25, 70_reset_and_hazards.md R152), for a build
and a host: array 0 is the loader's words, the input is fixed, the machine runs. -/
def launch (cfg : Config) (env : Env) (words : List Word) : Option State :=
  match Arr.empty.appendAll words with
  | some a => some { State.reset with status := .running, heap := Heap.empty.setProg a, cfg := cfg, env := env }
  | none => none

end Sys2Proof.Machine
end

