-- ==== Sys2Proof/Machine/Operands.lean ====
section
/-! DEFINITION. Every operand form of the machine (30_encoding.md R65, R71; 42_array_access.md): a register named by a
3-bit field, the 25-bit immediate, and the effective address, a pair of registers. There is no other addressing mode and
no displacement. -/

namespace Sys2Proof.Machine

/-- The immediate operand: `zext_32(w[24:0])`, not sign-extended, not shifted, not scaled (30_encoding.md R65). -/
def immOperand (v : Imm25) : Word := v.setWidth 32

/-- The effective address of AIDX and AMEND: the identifier in one register, the word offset in another; "nothing is
added, scaled or extended" (42_array_access.md). -/
def effectiveAddress (s : State) (idReg offReg : RegIdx) : Word × Word := (s.reg idReg, s.reg offReg)

/-- The byte OUT emits: `x[C][7:0]` (45_io.md R115). -/
def lowByte (v : Word) : Byte := v.extractLsb' 0 8

/-- The Word IN writes for a byte: `zext_32(b)` (45_io.md R116). -/
def byteOperand (b : Byte) : Word := b.setWidth 32

end Sys2Proof.Machine
end

