-- ==== Sys2Proof/Machine/Flags.lean ====
section
/-! DEFINITION. Conditions. The machine has no status flags, no condition codes and no predicate registers (10_state.md
R23), so no instruction computes a flag; the one conditional operation tests a general register against zero, and the
two dividing operations test their divisor. -/

namespace Sys2Proof.Machine

/-- The condition of CMOV: the whole 32-bit Word is nonzero (41_data_movement.md R90). -/
def conditionHolds (v : Word) : Bool := v != 0#32

/-- A quotient or remainder exists: the divisor is nonzero (43_arithmetic_logic.md R107). -/
def divisorOk (v : Word) : Bool := v != 0#32

end Sys2Proof.Machine
end

