-- ==== Sys2Proof/Machine/Allocation.lean ====
section
/-! DEFINITION. Allocation and abandonment (spec 44_allocation.md; reconstructed in the source and normative here,
log 18). -/

namespace Sys2Proof.Machine

/-- ALLOC (R110): `x[A] <- HeapAllocate(x[B])`; `OutOfIdentifiers`, then `OutOfMemory`. The size is read before the
register is written. -/
def execAlloc (a b : RegIdx) (s : State) : Host.Outcome State Fault Refusal :=
  conclude s (match s.heap.allocate s.cfg (s.reg b) with
    | .error r => .error r
    | .ok (id, h) => .ok ((s.setHeap h).setReg a id).advance)

/-- ABANDON (R111): `HeapAbandon(x[C])`; `InvalidArray`; `x[C]` keeps the stale identifier. -/
def execAbandon (c : RegIdx) (s : State) : Host.Outcome State Fault Refusal :=
  conclude s (match s.heap.abandon (s.reg c) with
    | .error r => .error r
    | .ok h => .ok (s.setHeap h).advance)

end Sys2Proof.Machine
end

