-- ==== Sys2Proof/Machine/Arithmetic.lean ====
section
/-! DEFINITION. Arithmetic and logic: ADD, MUL, DIV, NAND, SUB, MOD (spec 43_arithmetic_logic.md). Every operand and
result is an unsigned Word and results wrap modulo 2^32 (R100): the operations of a 32-bit vector. -/

namespace Sys2Proof.Machine

/-- The shape of all six: read `x[B]` and `x[C]`, write `x[A]`. -/
def binaryOp (f : Word → Word → Word) (a b c : RegIdx) (s : State) : State :=
  (s.setReg a (f (s.reg b) (s.reg c))).advance

/-- The shape of the two that divide: `DivisionByZero` when `x[C] = 0`, whatever `x[B]` is (R107, C6). -/
def dividingOp (f : Word → Word → Word) (a b c : RegIdx) (s : State) : Host.Outcome State Fault Refusal :=
  conclude s (if divisorOk (s.reg c) then .ok (binaryOp f a b c s) else .error .divisionByZero)

/-- ADD (R101): `x[A] <- (x[B] + x[C]) mod 2^32`. -/
def execAdd (a b c : RegIdx) (s : State) : Host.Outcome State Fault Refusal :=
  .next (binaryOp (fun v w => v + w) a b c s)

/-- MUL (R102): `x[A] <- (x[B] × x[C]) mod 2^32`. -/
def execMul (a b c : RegIdx) (s : State) : Host.Outcome State Fault Refusal :=
  .next (binaryOp (fun v w => v * w) a b c s)

/-- DIV (R103): `x[A] <- x[B] div x[C]`, unsigned. -/
def execDiv (a b c : RegIdx) (s : State) : Host.Outcome State Fault Refusal :=
  dividingOp (fun v w => v / w) a b c s

/-- NAND (R104): `x[A] <- ~(x[B] & x[C])`. -/
def execNand (a b c : RegIdx) (s : State) : Host.Outcome State Fault Refusal :=
  .next (binaryOp (fun v w => ~~~(v &&& w)) a b c s)

/-- SUB (R105): `x[A] <- (x[B] − x[C]) mod 2^32`. -/
def execSub (a b c : RegIdx) (s : State) : Host.Outcome State Fault Refusal :=
  .next (binaryOp (fun v w => v - w) a b c s)

/-- MOD (R106): `x[A] <- x[B] rem x[C]`, unsigned. -/
def execMod (a b c : RegIdx) (s : State) : Host.Outcome State Fault Refusal :=
  dividingOp (fun v w => v % w) a b c s

end Sys2Proof.Machine
end

