-- ==== Sys2Proof/Machine/ArrayAccess.lean ====
section
/-! DEFINITION. Array access: AIDX, the load, and AMEND, the store (spec 42_array_access.md). -/

namespace Sys2Proof.Machine

/-- AIDX (R95): `x[A] <- MemRead(x[B], x[C])`; `InvalidArray`, then `OutOfBounds`. -/
def execAidx (a b c : RegIdx) (s : State) : Host.Outcome State Fault Refusal :=
  let ea := effectiveAddress s b c
  conclude s (match s.heap.memRead ea.1 ea.2 with
    | .error r => .error r
    | .ok v => .ok (s.setReg a v).advance)

/-- AMEND (R96): `MemWrite((x[A], x[B]), x[C])`; `InvalidArray`, then `OutOfBounds`; no register is written. -/
def execAmend (a b c : RegIdx) (s : State) : Host.Outcome State Fault Refusal :=
  let ea := effectiveAddress s a b
  conclude s (match s.heap.memWrite ea.1 ea.2 (s.reg c) with
    | .error r => .error r
    | .ok h => .ok (s.setHeap h).advance)

end Sys2Proof.Machine
end

