-- ==== Sys2Proof/Machine/ByteIO.lean ====
section
/-! DEFINITION. Byte output and input (spec 45_io.md). Neither instruction can fault; each may be held by the host, and a
held instruction changes nothing of the machine's state: only the host's transaction is past (R119, R121). -/

namespace Sys2Proof.Machine

/-- OUT (R115, R121): `OutByte(x[C][7:0])`, in a transaction in which the sink is ready; held until then. -/
def execOut (c : RegIdx) (s : State) : Host.Outcome State Fault Refusal :=
  .next (if s.sinkReady then (s.tickOut.outByte (lowByte (s.reg c))).advance else s.tickOut)

/-- IN (R116, R119, R120): the offered byte, zero-extended, or all ones at the end of input, which consumes nothing; held
while nothing is offered. -/
def execInp (c : RegIdx) (s : State) : Host.Outcome State Fault Refusal :=
  .next (match s.inOffer with
    | .nothing => s.tickIn
    | .endOfInput => (s.tickIn.setReg c allOnes).advance
    | .byte b => (s.tickIn.takeByte.setReg c (byteOperand b)).advance)

end Sys2Proof.Machine
end

