-- ==== Sys2Proof/Machine/Control.lean ====
section
/-! DEFINITION. Control: HALT and LOADPROG, the machine's whole control-flow and system instruction set (spec
46_control.md). -/

namespace Sys2Proof.Machine

/-- HALT (R125): `pc <- pc + 1; status <- Halted` (C8, D6; log 13). -/
def execHalt (s : State) : Host.Outcome State Fault Refusal := .next s.advance.halt

/-- LOADPROG (R126): `active <- x[B]; pc <- x[C]`, exactly, with no increment after it; `InvalidArray` when `x[B]` is not
present. Identifier 0 is present (D4, log 15); the target offset is not checked here. -/
def execLoadprog (b c : RegIdx) (s : State) : Host.Outcome State Fault Refusal :=
  conclude s (if s.heap.present (s.reg b) then .ok (s.jump (s.reg b) (s.reg c)) else .error .invalidArray)

end Sys2Proof.Machine
end

