-- ==== Sys2Proof/Machine/DataMovement.lean ====
section
/-! DEFINITION. Data movement: CMOV and LDI (spec 41_data_movement.md). -/

namespace Sys2Proof.Machine

/-- CMOV (R90): `if x[C] ≠ 0: x[A] <- x[B]`, the condition read before the write. -/
def execCmov (a b c : RegIdx) (s : State) : Host.Outcome State Fault Refusal :=
  .next (if conditionHolds (s.reg c) then (s.setReg a (s.reg b)).advance else s.advance)

/-- LDI (R91): `x[RI] <- zext_32(IMM)`. -/
def execLdi (ri : RegIdx) (imm : Imm25) (s : State) : Host.Outcome State Fault Refusal :=
  .next (s.setReg ri (immOperand imm)).advance

end Sys2Proof.Machine
end

