-- ==== Sys2Proof/Machine/Cycle.lean ====
section
/-! DEFINITION. One cycle of the Execution Engine: fetch, decode, execute (spec 40_execution_cycle.md R80 to R86). The
`pc` advance and the change to `Halted` stand in the instruction's own meaning. -/

namespace Sys2Proof.Machine

/-- The reason a decode failure raises (R82). -/
def decodeReason : DecodeError → Reason
  | .illegalOpcode => .illegalOpcode

/-- The instruction of this cycle, or the fault of its fetch or decode, in that order (R81, R82; 60_exceptions.md
R139). -/
def currentInstr (s : State) : Except Reason Instr :=
  match s.heap.fetch s.active s.pc with
  | .error r => .error r
  | .ok w =>
    match decode w with
    | .error e => .error (decodeReason e)
    | .ok i => .ok i

/-- One cycle (R80): the atomic step of a running machine. -/
def cycle (s : State) : Host.Outcome State Fault Refusal :=
  match currentInstr s with
  | .error r => .next (takeFault r s)
  | .ok i => exec i s

end Sys2Proof.Machine
end

