-- ==== Sys2Proof/Machine/Step.lean ====
section
/-! DEFINITION. One step of the machine, and where its next instruction stands. -/

namespace Sys2Proof.Machine

/-- One step. The reset input, when asserted, comes before anything else (spec 70_reset_and_hazards.md R150, D16; log
11). Otherwise a held machine serves its load port (R153), a running machine performs one cycle (40_execution_cycle.md
R80), and in a terminal state nothing changes (R87, 70_reset_and_hazards.md R161; log 5). -/
def step (s : State) : Host.Outcome State Fault Refusal :=
  if s.resetAsserted then .next s.applyReset
  else
    match s.status with
    | .idle => loadTransaction s.tickReset
    | .running => cycle s.tickReset
    | .halted => .next s.tickReset
    | .faulted _ => .next s.tickReset

/-- `s` with the instruction whose bits are `w` as the very next one to run: stored at `(active, pc)`, the active array
present and long enough, the machine running and reset not asserted. It stands for the loader's hand-off (log 1). At
`pc` = 2^32 - 1, which no array reaches (20_memory.md R31), `pc` is put to 0 (log 21). The instruction is one Word whatever
`nbits` is (30_encoding.md R60). -/
def State.withFetchWord (s : State) (nbits w : Nat) : State :=
  let pc := if s.pc = allOnes then 0#32 else s.pc
  let a := (s.heap.arr? s.active).getD Arr.empty
  let len := if pc < a.len then a.len else pc + 1#32
  { s with
    pc := pc
    status := .running
    heap := s.heap.setArr s.active (({ a with len := len } : Arr).write pc (BitVec.ofNat 32 (w % 2 ^ min nbits 32)))
    env := { s.env with resetIn := if s.resetAsserted then [] else s.env.resetIn } }

end Sys2Proof.Machine
end

