-- ==== Sys2Proof/Machine/Ports.lean ====
section
/-! DEFINITION. The block's ports as the host sees them (spec 10_state.md R17, R26; 20_memory.md R49; 40_execution_cycle.md
R88; 45_io.md R120, R121; 60_exceptions.md R130; 70_reset_and_hazards.md R161): views of the state, and the heap's
command port. The decoder's ports stand in Decode.lean. No step reads these. -/

namespace Sys2Proof.Machine

/-! ### Status port -/

/-- The numeric code of a fault reason (60_exceptions.md R130, D10). -/
def Reason.code : Reason → BitVec 3
  | .illegalOpcode => 1
  | .invalidArray => 2
  | .outOfBounds => 3
  | .divisionByZero => 4
  | .programCounterOutOfBounds => 5
  | .outOfIdentifiers => 6
  | .outOfMemory => 7

/-- `status_code[1:0]` (10_state.md R17, D11). -/
def Status.statusCode : Status → BitVec 2
  | .running => 0
  | .halted => 1
  | .faulted _ => 2
  | .idle => 3

/-- `fault_code[2:0]`: the reason's code when the status is `Faulted`, else 0 (10_state.md R17). -/
def Status.faultCode : Status → BitVec 3
  | .faulted r => r.code
  | .running => 0
  | .halted => 0
  | .idle => 0

/-- A terminal state: `Halted` or `Faulted` (10_state.md R16). -/
def Status.terminal : Status → Bool
  | .halted => true
  | .faulted _ => true
  | .running => false
  | .idle => false

/-! ### Register-file ports -/

/-- The three combinational read ports (10_state.md R26, D13). -/
def readPorts (s : State) (raddr0 raddr1 raddr2 : RegIdx) : Word × Word × Word :=
  (s.reg raddr0, s.reg raddr1, s.reg raddr2)

/-- The one write port (10_state.md R26). -/
def writePort (s : State) (wen : Bool) (waddr : RegIdx) (wdata : Word) : State :=
  if wen then s.setReg waddr wdata else s

/-! ### Heap command port -/

/-- A command of the heap (20_memory.md R49, D15). -/
inductive HeapCommand where
  | read (id off : Word)
  | write (id off data : Word)
  | allocate (size : Word)
  | abandon (id : Word)
  | fetch (id off : Word)
  deriving DecidableEq, Repr

/-- A response: `ok`, the Word read or the identifier allocated (`none` for a command that answers no Word; log 23), and
the fault code, 0 when `ok`. -/
structure HeapResponse where
  ok : Bool
  data : Option Word
  fault : BitVec 3
  deriving DecidableEq, Repr

/-- A command that raises changes no heap state (20_memory.md R49). -/
def respond (h : Heap) : Except Reason (Option Word × Heap) → HeapResponse × Heap
  | .ok (d, h') => ({ ok := true, data := d, fault := 0 }, h')
  | .error r => ({ ok := false, data := none, fault := r.code }, h)

/-- The heap's command port: one atomic operation (20_memory.md R49). -/
def Heap.command (h : Heap) (cfg : Config) : HeapCommand → HeapResponse × Heap
  | .read id off => respond h ((h.memRead id off).map fun v => (some v, h))
  | .write id off v => respond h ((h.memWrite id off v).map fun h' => (none, h'))
  | .allocate n => respond h ((h.allocate cfg n).map fun p => (some p.1, p.2))
  | .abandon id => respond h ((h.abandon id).map fun h' => (none, h'))
  | .fetch id off => respond h ((h.fetch id off).map fun v => (some v, h))

/-! ### Input and output ports -/

/-- The machine performs a cycle in this step and its instruction is `i`. -/
def executes (s : State) (i : Instr) : Bool :=
  !s.resetAsserted && s.status == .running && (currentInstr s).toOption == some i

/-- `in_valid`: the host offers a byte or the end of input (45_io.md R120). -/
def InOffer.valid : InOffer → Bool
  | .nothing => false
  | .endOfInput => true
  | .byte _ => true

/-- `in_eof`: the offer is the end of input (45_io.md R120). -/
def InOffer.eof : InOffer → Bool
  | .endOfInput => true
  | .nothing => false
  | .byte _ => false

/-- `in_take`: asserted by an IN instruction only for a byte, never for the end of input (45_io.md R120). -/
def inTake (s : State) : Bool :=
  (List.finRange 8).any (fun c => executes s (.inp c)) &&
    (match s.inOffer with
     | .byte _ => true
     | .endOfInput => false
     | .nothing => false)

/-- `out_valid` and `out_data`: the byte the executing OUT instruction offers the sink (45_io.md R121). -/
def outOffer (s : State) : Option Byte :=
  ((List.finRange 8).find? (fun c => executes s (.out c))).map (fun c => lowByte (s.reg c))

/-! ### After the end -/

/-- The result of a run as the host sees it (40_execution_cycle.md R88). -/
structure Result where
  /-- `none` for `Halted`, the reason for `Faulted` -/
  fault : Option Reason
  output : List Byte
  consumed : Nat
  deriving DecidableEq, Repr

/-- The result, in a terminal state only (40_execution_cycle.md R88). -/
def State.result (s : State) : Option Result :=
  match s.status with
  | .halted => some { fault := none, output := s.out, consumed := s.inPos }
  | .faulted r => some { fault := some r, output := s.out, consumed := s.inPos }
  | .running => none
  | .idle => none

/-- What the read-only diagnostic view shows (70_reset_and_hazards.md R161, D24). -/
structure Diagnostic where
  x : Vector Word 8
  pc : Word
  active : Word
  heap : Heap
  deriving DecidableEq, Repr

/-- The diagnostic view, available in a terminal state only (70_reset_and_hazards.md R161). -/
def State.diagnostic (s : State) : Option Diagnostic :=
  if s.status.terminal then some { x := s.x, pc := s.pc, active := s.active, heap := s.heap } else none

end Sys2Proof.Machine
end

