-- ==== Sys2Proof/Safety.lean ====
section
/-! DEFINITION. The terms claims are stated in: what stays the same over an instruction (frames), the words of the
instructions as the spec's rules write them, how identifier states may move, and the invariant every step keeps. -/

namespace Sys2Proof.Machine

/-! ### Words as the rules of 41_ to 46_ write them -/

/-- `base | A << 6 | B << 3 | C`, the encoding line of a standard-layout instruction's rule. -/
def standardWord (base : Word) (a b c : RegIdx) : Word :=
  base ||| (BitVec.ofNat 32 a.val <<< 6) ||| (BitVec.ofNat 32 b.val <<< 3) ||| BitVec.ofNat 32 c.val

/-- `0xD0000000 | RI << 25 | IMM`, the encoding line of LDI's rule (41_data_movement.md R91). -/
def immediateWord (ri : RegIdx) (v : Imm25) : Word :=
  0xD0000000#32 ||| (BitVec.ofNat 32 ri.val <<< 25) ||| v.setWidth 32

/-! ### Frames: `t` against the state `s` before -/

/-- Every register holds what it held. -/
def SameRegs (s t : State) : Prop := ∀ r : RegIdx, t.reg r = s.reg r

/-- Every register but `a` holds what it held. -/
def SameRegsBut (a : RegIdx) (s t : State) : Prop := ∀ r : RegIdx, r ≠ a → t.reg r = s.reg r

/-- Every Word of memory reads as before, and every identifier is in the state it was in. -/
def SameMemory (s t : State) : Prop :=
  (∀ id off : Word, t.heap.peek id off = s.heap.peek id off) ∧ ∀ id : Word, t.heap.idState id = s.heap.idState id

/-- `active` and `status` are as before. -/
def SameControl (s t : State) : Prop := t.active = s.active ∧ t.status = s.status

/-- The position in the input and the output are as before. -/
def SameIO (s t : State) : Prop := t.inPos = s.inPos ∧ t.out = s.out

/-- The parameters of the build and everything about the host are as before. -/
def SameParameters (s t : State) : Prop := t.cfg = s.cfg ∧ t.env = s.env

/-- Nothing but register `a` and `pc` may differ. -/
def OnlyRegAndPc (a : RegIdx) (s t : State) : Prop :=
  SameRegsBut a s t ∧ SameMemory s t ∧ SameControl s t ∧ SameIO s t ∧ SameParameters s t

/-- Nothing but memory and `pc` may differ. -/
def OnlyMemoryAndPc (s t : State) : Prop :=
  SameRegs s t ∧ SameControl s t ∧ SameIO s t ∧ SameParameters s t

/-! ### What an instruction may write and raise -/

/-- The register an instruction writes, if it writes one (the table of 10_state.md section 1). -/
def instrDestination : Instr → Option RegIdx
  | .cmov a _ _ => some a
  | .aidx a _ _ => some a
  | .amend _ _ _ => none
  | .add a _ _ => some a
  | .mul a _ _ => some a
  | .div a _ _ => some a
  | .nand a _ _ => some a
  | .halt => none
  | .alloc a _ => some a
  | .abandon _ => none
  | .out _ => none
  | .inp c => some c
  | .loadprog _ _ => none
  | .ldi ri _ => some ri
  | .sub a _ _ => some a
  | .mod a _ _ => some a

/-- The faults an instruction's own rule can raise (60_exceptions.md sections 1 and 3); those of the fetch and the decode
are not among them. -/
def instrFaults : Instr → List Reason
  | .cmov _ _ _ => []
  | .aidx _ _ _ => [.invalidArray, .outOfBounds]
  | .amend _ _ _ => [.invalidArray, .outOfBounds]
  | .add _ _ _ => []
  | .mul _ _ _ => []
  | .div _ _ _ => [.divisionByZero]
  | .nand _ _ _ => []
  | .halt => []
  | .alloc _ _ => [.outOfIdentifiers, .outOfMemory]
  | .abandon _ => [.invalidArray]
  | .out _ => []
  | .inp _ => []
  | .loadprog _ _ => [.invalidArray]
  | .ldi _ _ => []
  | .sub _ _ _ => []
  | .mod _ _ _ => [.divisionByZero]

/-! ### Identifier states -/

/-- Two identifier states with the same length where there is one: what a store into the array leaves alone. -/
def IdState.sameShape : IdState → IdState → Bool
  | .program a, .program b => a.len == b.len
  | .allocated a, .allocated b => a.len == b.len
  | .unallocated, .unallocated => true
  | .freed, .freed => true
  | _, _ => false

/-- The transitions of 20_memory.md R32 over one instruction, lengths fixed while an array lives (R52): `unallocated` and
`freed` may become `allocated`, `allocated` may become `freed`, `program` stays. -/
def IdState.mayBecome : IdState → IdState → Bool
  | .unallocated, .allocated _ => true
  | .freed, .allocated _ => true
  | .allocated _, .freed => true
  | p, q => p.sameShape q

/-- `idstate(id) = allocated` (20_memory.md R32). -/
def Heap.isAllocated (h : Heap) (id : Word) : Bool :=
  match h.idState id with
  | .allocated _ => true
  | .program _ => false
  | .unallocated => false
  | .freed => false

/-- `id` is "the smallest id in 1..`ID_MAX` with idstate(id) != allocated" (20_memory.md R38). -/
def SmallestFree (s : State) (id : Word) : Prop :=
  id ≠ 0#32 ∧ id ≤ s.cfg.idMax ∧ s.heap.isAllocated id = false ∧
    ∀ q : Word, q ≠ 0#32 → q < id → s.heap.isAllocated q = true

/-- No identifier of 1..`ID_MAX` is free (20_memory.md R38, 60_exceptions.md R136). -/
def NoneFree (s : State) : Prop := ∀ q : Word, q ≠ 0#32 → q ≤ s.cfg.idMax → s.heap.isAllocated q = true

/-- `n` more words fit the capacity of the build (20_memory.md R38, R50). -/
def CapacityAllows (s : State) (n : Word) : Prop :=
  ∀ c, s.cfg.capacity = some c → s.heap.usedWords + n.toNat ≤ c

/-! ### The invariant -/

/-- What holds of a machine that is held after reset: every piece of state but array 0 has its reset value (10_state.md
R25, 70_reset_and_hazards.md R150). -/
def HeldAtReset (s : State) : Prop :=
  (∀ r : RegIdx, s.reg r = regReset) ∧ s.pc = 0#32 ∧ s.active = 0#32 ∧ s.heap.ids = [] ∧ s.inPos = 0 ∧ s.out = []

/-- The identifiers ever produced are 1 .. k, none above `ID_MAX` (20_memory.md R38, R51). -/
def IdsContiguous (s : State) : Prop :=
  s.heap.ids.map (fun e => e.1) = List.range' 1 s.heap.ids.length ∧ s.heap.ids.length ≤ s.cfg.idMax.toNat

/-- The live arrays fit a finite capacity (20_memory.md R38, R50). -/
def WithinCapacity (s : State) : Prop := ∀ c, s.cfg.capacity = some c → s.heap.usedWords ≤ c

/-- The active array is array 0 or one that ALLOC has returned (40_execution_cycle.md R81: "`active` is 0 at reset and
LOADPROG sets it only to a present identifier"; it may have been abandoned since). -/
def ActiveProduced (s : State) : Prop := s.active = 0#32 ∨ s.active.toNat ≤ s.heap.ids.length

/-- The invariant of the machine: memory in its canonical form, identifiers produced in order and within `ID_MAX`, the
capacity respected, the active array produced, `in_pos` within the input, and a held machine at its reset values. -/
def MachineInv (s : State) : Prop :=
  s.heap.wf = true ∧ IdsContiguous s ∧ WithinCapacity s ∧ ActiveProduced s
    ∧ s.inPos ≤ s.env.input.length ∧ (s.status = .idle → HeldAtReset s)

/-! ### Histories a program cannot tell apart -/

/-- The two states agree in everything but which absent identifiers are `freed` and which were never produced
(20_memory.md R32). -/
def SameButHistory (s s' : State) : Prop :=
  s'.x = s.x ∧ s'.pc = s.pc ∧ s'.active = s.active ∧ s'.status = s.status ∧ s'.inPos = s.inPos ∧ s'.out = s.out
    ∧ s'.cfg = s.cfg ∧ s'.env = s.env ∧ s'.heap.prog = s.heap.prog ∧ ∀ id : Word, s'.heap.arr? id = s.heap.arr? id

end Sys2Proof.Machine
end

