-- ==== Sys2Proof/Certificates/Slice0/Obligations.lean ====
section
/-! DEFINITION. The statements for the provers. Each docstring names the rule of the spec it formalises, or the sections
it rests on.

The encoding line of an instruction's rule is stated with the rule, as the rule writes the word
(`decode (standardWord …)`); the opcode numbers in it are the spec's (log 3). -/

open Sys2Proof Sys2Proof.Machine

/-! ### Decoder and encoder (30_encoding.md) -/

/-- Every instruction's Word decodes to that instruction, with every operand at every value its field admits
(30_encoding.md sections 1, 3 and 6). -/
def Obligations.EncodeThenDecode : Prop :=
  ∀ i : Instr, i.wellFormed = true → decode (encode i) = .ok i

/-- The layouts lose no bit: a standard group with any three register fields, used or not, and an immediate group come
back from their words; an immediate-load Word is determined by its fields; so is a standard Word whose bits 27:9 are zero
(30_encoding.md section 6, the inverse it derives). -/
def Obligations.FieldsRoundTrip : Prop :=
  (∀ (op : Opcode) (a b c : RegIdx), op ≠ .ldi → extractFields (encodeStd op a b c) = .std op a b c) ∧
  (∀ (ri : RegIdx) (v : Imm25), extractFields (encodeImm ri v) = .imm ri v) ∧
  (∀ (w : Word) (ri : RegIdx) (v : Imm25), extractFields w = .imm ri v → encodeImm ri v = w) ∧
  (∀ (w : Word) (op : Opcode) (a b c : RegIdx), extractFields w = .std op a b c → w.extractLsb' 9 19 = 0#19 →
    encodeStd op a b c = w)

/-- Every one of the 2^32 Words is an instruction, so `IllegalOpcode` is never raised (30_encoding.md section 5, derived
there from the opcode map). -/
def Obligations.EveryWordDecodes : Prop :=
  ∀ w : Word, (∃ i : Instr, decode w = .ok i) ∧ (decoderPorts w).illegal = false

/-- Bits 27:9 of a standard Word do not matter, and neither do the register fields an instruction does not use
(30_encoding.md sections 2 and 5; the spec's decision D2, log 4). -/
def Obligations.FillerBitsIgnored : Prop :=
  (∀ v w : Word, fieldOP v = fieldOP w → fieldOP v ≠ 0xD#4 → v.extractLsb' 0 9 = w.extractLsb' 0 9 →
    decode v = decode w) ∧
  (∀ a b c : RegIdx,
    decode (standardWord 0x70000000#32 a b c) = .ok .halt ∧
    decode (standardWord 0x80000000#32 a b c) = .ok (.alloc a b) ∧
    decode (standardWord 0x90000000#32 a b c) = .ok (.abandon c) ∧
    decode (standardWord 0xA0000000#32 a b c) = .ok (.out c) ∧
    decode (standardWord 0xB0000000#32 a b c) = .ok (.inp c) ∧
    decode (standardWord 0xC0000000#32 a b c) = .ok (.loadprog b c))

/-- A few words of 95_test_vectors.md section 2, one of each family. -/
def Obligations.SampleWordsDecode : Prop :=
  decode 0xD0000048#32 = .ok (.ldi 0 72#25) ∧ decode 0x00000053#32 = .ok (.cmov 1 2 3) ∧
  decode 0x12345678#32 = .ok (.aidx 1 7 0) ∧ decode 0x3FFFFE53#32 = .ok (.add 1 2 3) ∧
  decode 0xFFFFFFFF#32 = .ok (.mod 7 7 7) ∧ decode 0x80000088#32 = .ok (.alloc 2 1) ∧
  decode 0xA00001F8#32 = .ok (.out 0) ∧ decode 0xC000003C#32 = .ok (.loadprog 7 4) ∧
  decode 0x7ABCDE00#32 = .ok .halt

/-- `is_imm` tells which group of the decoder's outputs is meaningful, and that group is what the decoder extracts
(30_encoding.md section 4, the ports; decision D14). -/
def Obligations.DecoderPortsShowTheFields : Prop :=
  ∀ w : Word, (decoderPorts w).opcode = fieldOP w ∧
    ((decoderPorts w).isImm = true → extractFields w = .imm (decoderPorts w).immReg (decoderPorts w).immVal) ∧
    ((decoderPorts w).isImm = false → ∃ op : Opcode, op ≠ .ldi ∧ opcodeNum op = (decoderPorts w).opcode ∧
      extractFields w = .std op (decoderPorts w).a (decoderPorts w).b (decoderPorts w).c)

/-! ### Register file (10_state.md) -/

/-- R12: a register write replaces the content of that register, any of the eight, and changes nothing else. -/
def Obligations.RegisterWriteChangesOneRegister : Prop :=
  ∀ (s : State) (i : RegIdx) (v : Word),
    (s.setReg i v).reg i = v ∧ (s.setReg i v).pc = s.pc ∧ OnlyRegAndPc i s (s.setReg i v)

/-! ### Data movement (41_data_movement.md) -/

/-- R90. CMOV always completes; the condition is read before the write. -/
def Obligations.CmovMovesOnNonzero : Prop :=
  ∀ (a b c : RegIdx) (s : State),
    decode (standardWord 0x00000000#32 a b c) = .ok (.cmov a b c) ∧
    ∃ t, exec (.cmov a b c) s = .next t ∧ t.reg a = (if s.reg c ≠ 0#32 then s.reg b else s.reg a) ∧
      t.pc = s.pc + 1#32 ∧ OnlyRegAndPc a s t

/-- R91. LDI always completes; the immediate is zero-extended. -/
def Obligations.LdiLoadsTheImmediate : Prop :=
  ∀ (ri : RegIdx) (imm : Imm25) (s : State),
    decode (immediateWord ri imm) = .ok (.ldi ri imm) ∧
    ∃ t, exec (.ldi ri imm) s = .next t ∧ (t.reg ri).toNat = imm.toNat ∧ t.pc = s.pc + 1#32 ∧ OnlyRegAndPc ri s t

/-! ### Arithmetic and logic (43_arithmetic_logic.md) -/

/-- R101, R102, R105. ADD, MUL and SUB always complete with the exact result reduced modulo 2^32. -/
def Obligations.AddMulSubWrap : Prop :=
  ∀ (a b c : RegIdx) (s : State),
    decode (standardWord 0x30000000#32 a b c) = .ok (.add a b c) ∧
    decode (standardWord 0x40000000#32 a b c) = .ok (.mul a b c) ∧
    decode (standardWord 0xE0000000#32 a b c) = .ok (.sub a b c) ∧
    (∃ t, exec (.add a b c) s = .next t ∧ (t.reg a).toNat = ((s.reg b).toNat + (s.reg c).toNat) % 2 ^ 32 ∧
      t.pc = s.pc + 1#32 ∧ OnlyRegAndPc a s t) ∧
    (∃ t, exec (.mul a b c) s = .next t ∧ (t.reg a).toNat = ((s.reg b).toNat * (s.reg c).toNat) % 2 ^ 32 ∧
      t.pc = s.pc + 1#32 ∧ OnlyRegAndPc a s t) ∧
    (∃ t, exec (.sub a b c) s = .next t ∧
      ((t.reg a).toNat : Int) = ((s.reg b).toNat - (s.reg c).toNat : Int) % 2 ^ 32 ∧
      t.pc = s.pc + 1#32 ∧ OnlyRegAndPc a s t)

/-- R104. NAND always completes, each of the 32 bits by itself. -/
def Obligations.NandIsBitwise : Prop :=
  ∀ (a b c : RegIdx) (s : State),
    decode (standardWord 0x60000000#32 a b c) = .ok (.nand a b c) ∧
    ∃ t, exec (.nand a b c) s = .next t ∧
      (∀ k : Nat, k < 32 → (t.reg a).getLsbD k = !((s.reg b).getLsbD k && (s.reg c).getLsbD k)) ∧
      t.pc = s.pc + 1#32 ∧ OnlyRegAndPc a s t

/-- R103, R106, R107. With a nonzero divisor DIV and MOD complete with the unsigned quotient and remainder; with a zero
divisor both fault `DivisionByZero` whatever the dividend is. -/
def Obligations.DivModQuotientRemainder : Prop :=
  ∀ (a b c : RegIdx) (s : State),
    decode (standardWord 0x50000000#32 a b c) = .ok (.div a b c) ∧
    decode (standardWord 0xF0000000#32 a b c) = .ok (.mod a b c) ∧
    (s.reg c ≠ 0#32 → ∃ t u, exec (.div a b c) s = .next t ∧ exec (.mod a b c) s = .next u ∧
      (s.reg b).toNat = (s.reg c).toNat * (t.reg a).toNat + (u.reg a).toNat ∧ (u.reg a).toNat < (s.reg c).toNat ∧
      t.pc = s.pc + 1#32 ∧ u.pc = s.pc + 1#32 ∧ OnlyRegAndPc a s t ∧ OnlyRegAndPc a s u) ∧
    (s.reg c = 0#32 →
      exec (.div a b c) s = .next { s with status := .faulted .divisionByZero } ∧
      exec (.mod a b c) s = .next { s with status := .faulted .divisionByZero })

/-! ### Array access (42_array_access.md, 20_memory.md) -/

/-- R35. The two checks of a data access and their order, for reads and writes alike. -/
def Obligations.DataAccessChecks : Prop :=
  ∀ (h : Heap) (id off v : Word),
    (h.present id = false → h.memRead id off = .error .invalidArray ∧ h.memWrite id off v = .error .invalidArray) ∧
    (∀ arr, h.arr? id = some arr → arr.len ≤ off →
      h.memRead id off = .error .outOfBounds ∧ h.memWrite id off v = .error .outOfBounds) ∧
    (∀ arr, h.arr? id = some arr → off < arr.len →
      (∃ w, h.memRead id off = .ok w) ∧ ∃ h', h.memWrite id off v = .ok h')

/-- R95. AIDX completes when the identifier is present (identifier 0 denotes the program array) and the offset is below
the length; else it faults, `InvalidArray` first. -/
def Obligations.AidxReadsTheElement : Prop :=
  ∀ (a b c : RegIdx) (s : State),
    decode (standardWord 0x10000000#32 a b c) = .ok (.aidx a b c) ∧
    s.heap.arr? 0#32 = some s.heap.prog ∧
    (∀ arr, s.heap.arr? (s.reg b) = some arr → s.reg c < arr.len →
      ∃ t, exec (.aidx a b c) s = .next t ∧ s.heap.peek (s.reg b) (s.reg c) = some (t.reg a) ∧
        t.pc = s.pc + 1#32 ∧ OnlyRegAndPc a s t) ∧
    (s.heap.present (s.reg b) = false →
      exec (.aidx a b c) s = .next { s with status := .faulted .invalidArray }) ∧
    (∀ arr, s.heap.arr? (s.reg b) = some arr → arr.len ≤ s.reg c →
      exec (.aidx a b c) s = .next { s with status := .faulted .outOfBounds })

/-- R96. AMEND completes when the identifier is present and the offset is below the length: the Word at the effective
address becomes `x[C]`, and every other Word, every length and every identifier state stays; no register is written. Else
it faults, `InvalidArray` first, and stores nothing. -/
def Obligations.AmendWritesTheElement : Prop :=
  ∀ (a b c : RegIdx) (s : State),
    decode (standardWord 0x20000000#32 a b c) = .ok (.amend a b c) ∧
    s.heap.arr? 0#32 = some s.heap.prog ∧
    (∀ arr, s.heap.arr? (s.reg a) = some arr → s.reg b < arr.len →
      ∃ t, exec (.amend a b c) s = .next t ∧
        t.heap.peek (effectiveAddress s a b).1 (effectiveAddress s a b).2 = some (s.reg c) ∧
        (∀ id off : Word, (id, off) ≠ effectiveAddress s a b → t.heap.peek id off = s.heap.peek id off) ∧
        (∀ id : Word, (s.heap.idState id).sameShape (t.heap.idState id) = true) ∧
        t.pc = s.pc + 1#32 ∧ OnlyMemoryAndPc s t) ∧
    (s.heap.present (s.reg a) = false →
      exec (.amend a b c) s = .next { s with status := .faulted .invalidArray }) ∧
    (∀ arr, s.heap.arr? (s.reg a) = some arr → arr.len ≤ s.reg b →
      exec (.amend a b c) s = .next { s with status := .faulted .outOfBounds })

/-- What AMEND stores, AIDX reads back through the same two registers, array 0 included (95_test_vectors.md S5;
20_memory.md section 4). -/
def Obligations.StoreThenLoadReturnsValue : Prop :=
  ∀ (a b c d : RegIdx) (s : State) (arr : Arr), s.heap.arr? (s.reg a) = some arr → s.reg b < arr.len →
    ∃ t u, exec (.amend a b c) s = .next t ∧ exec (.aidx d a b) t = .next u ∧ u.reg d = s.reg c

/-- R48. A store is seen by every later fetch of that offset: the heap the AMEND leaves fetches the stored Word there, and
differs for no other fetch; and from then on, on a canonical heap, each further instruction leaves what is fetched there as
it is, unless it is an AMEND to that very address or its array is no longer present (canonical form is kept, so this goes
on from instruction to instruction). -/
def Obligations.FetchSeesEveryStore : Prop :=
  (∀ (a b c : RegIdx) (s : State) (arr : Arr), s.heap.arr? (s.reg a) = some arr → s.reg b < arr.len →
    ∃ t, exec (.amend a b c) s = .next t ∧ t.heap.fetch (s.reg a) (s.reg b) = .ok (s.reg c) ∧
      (∀ id off : Word, (id, off) ≠ effectiveAddress s a b → t.heap.fetch id off = s.heap.fetch id off) ∧
      (s.heap.wf = true → t.heap.wf = true)) ∧
  (∀ (i : Instr) (t u : State) (id off w : Word), t.heap.wf = true → t.heap.fetch id off = .ok w →
    exec i t = .next u → (∀ a b c, i = .amend a b c → effectiveAddress t a b ≠ (id, off)) →
    u.heap.present id = true → u.heap.fetch id off = .ok w ∧ u.heap.wf = true)

/-- A fetch answers the Word a data read would, and its failures carry the fetch's own faults (20_memory.md section 4;
40_execution_cycle.md section 1). That a fetch from an absent array faults `InvalidArray` is the spec's own decision D5
(log 16). -/
def Obligations.FetchAgreesWithRead : Prop :=
  ∀ (h : Heap) (id off : Word),
    (∀ w, h.fetch id off = .ok w ↔ h.memRead id off = .ok w) ∧
    (h.memRead id off = .error .invalidArray ↔ h.fetch id off = .error .invalidArray) ∧
    (h.memRead id off = .error .outOfBounds ↔ h.fetch id off = .error .programCounterOutOfBounds)

/-! ### Allocation and abandonment (44_allocation.md, 20_memory.md) -/

/-- ALLOC on a canonical heap (44_allocation.md; 20_memory.md section 4): it completes with the smallest free identifier
and an array of zeros of the length asked for; it faults `OutOfIdentifiers` when none is free, else `OutOfMemory` when the
capacity is exceeded. Policy, `ID_MAX` and capacity are the spec's decisions D7, D8, D9, D19 (logs 8, 17). -/
def Obligations.AllocReturnsSmallestFree : Prop :=
  ∀ (a b : RegIdx) (s : State), s.heap.wf = true →
    (∀ id, SmallestFree s id → CapacityAllows s (s.reg b) →
      ∃ t, exec (.alloc a b) s = .next t ∧ t.reg a = id ∧
        (∃ arr, t.heap.idState id = .allocated arr ∧ arr.len = s.reg b) ∧
        (∀ off : Word, off < s.reg b → t.heap.peek id off = some 0#32) ∧
        (∀ q : Word, q ≠ id → t.heap.idState q = s.heap.idState q) ∧
        (∀ q off : Word, q ≠ id → t.heap.peek q off = s.heap.peek q off) ∧
        t.pc = s.pc + 1#32 ∧ SameRegsBut a s t ∧ SameControl s t ∧ SameIO s t ∧ SameParameters s t) ∧
    (NoneFree s → exec (.alloc a b) s = .next { s with status := .faulted .outOfIdentifiers }) ∧
    (∀ id, SmallestFree s id → ¬ CapacityAllows s (s.reg b) →
      exec (.alloc a b) s = .next { s with status := .faulted .outOfMemory })

/-- ABANDON (44_allocation.md) completes when `x[C]` is allocated: that identifier is freed and absent, `x[C]` and everything else
stays; using the stale identifier then faults `InvalidArray`, and if it was the active array the next cycle does (the spec's own decision D5, log 16). The
word decodes whatever its unused fields are (decision D2, log 4). For identifier 0 and an identifier not
allocated it faults `InvalidArray`. -/
def Obligations.AbandonFreesTheArray : Prop :=
  ∀ (c : RegIdx) (s : State),
    (∀ a b : RegIdx, decode (standardWord 0x90000000#32 a b c) = .ok (.abandon c)) ∧
    (s.heap.isAllocated (s.reg c) = true →
      ∃ t, exec (.abandon c) s = .next t ∧ t.heap.idState (s.reg c) = .freed ∧
        (∀ off : Word, t.heap.peek (s.reg c) off = none) ∧
        (∀ q : Word, q ≠ s.reg c → t.heap.idState q = s.heap.idState q) ∧
        (∀ q off : Word, q ≠ s.reg c → t.heap.peek q off = s.heap.peek q off) ∧
        (∀ d e : RegIdx,
          exec (.aidx d c e) t = .next { t with status := .faulted .invalidArray } ∧
          exec (.amend c d e) t = .next { t with status := .faulted .invalidArray } ∧
          exec (.loadprog c d) t = .next { t with status := .faulted .invalidArray } ∧
          exec (.abandon c) t = .next { t with status := .faulted .invalidArray }) ∧
        (s.active = s.reg c → cycle t = .next { t with status := .faulted .invalidArray }) ∧
        t.pc = s.pc + 1#32 ∧ OnlyMemoryAndPc s t) ∧
    (s.heap.isAllocated (s.reg c) = false →
      exec (.abandon c) s = .next { s with status := .faulted .invalidArray })

/-- Allocate, abandon, allocate again: the identifier is reused and the new array is zeros, whatever the sizes
(95_test_vectors.md S3; 20_memory.md section 4, under the spec's policy D7, log 17). Only builds of unbounded capacity are
spoken of, where the second ALLOC cannot run out; `AllocReturnsSmallestFree` covers the others. -/
def Obligations.AbandonedIdentifierIsReused : Prop :=
  ∀ (a b d e : RegIdx) (s : State) (id : Word), s.heap.wf = true → s.cfg.capacity = none → SmallestFree s id →
    ∃ t u v, exec (.alloc a b) s = .next t ∧ exec (.abandon a) t = .next u ∧ exec (.alloc d e) u = .next v ∧
      t.reg a = id ∧ v.reg d = id ∧
      (∀ off : Word, off < u.reg e → v.heap.peek id off = some 0#32) ∧
      ∀ q : Word, q ≠ id → v.heap.idState q = s.heap.idState q

/-! ### Byte input and output (45_io.md) -/

/-- OUT (45_io.md section 1) completes in a transaction in which the sink is ready: exactly one byte, the low 8 bits of
`x[C]`, is appended; nothing else changes but the past transaction of the host. The ready premise and the schedule are the
spec's decision D18 and the model's data (log 10); the unused fields are ignored by decision D2 (log 4). -/
def Obligations.OutEmitsTheLowByte : Prop :=
  ∀ (c : RegIdx) (s : State),
    (∀ a b : RegIdx, decode (standardWord 0xA0000000#32 a b c) = .ok (.out c)) ∧
    (s.env.outReady.headD true = true →
      ∃ t b, exec (.out c) s = .next t ∧ t.out = s.out ++ [b] ∧ b.toNat = (s.reg c).toNat % 2 ^ 8 ∧
        t.pc = s.pc + 1#32 ∧ SameRegs s t ∧ SameMemory s t ∧ SameControl s t ∧ t.inPos = s.inPos ∧ t.cfg = s.cfg ∧
        t.env = { s.env with outReady := s.env.outReady.tail })

/-- IN (45_io.md section 1) completes in a transaction in which the host offers something: the next byte, zero-extended,
one byte consumed; or all ones at the end of input, nothing consumed. The offer premise and the schedule are the spec's
decision D17 and the model's data (log 9); the unused fields are ignored by decision D2 (log 4). -/
def Obligations.InReadsOneByte : Prop :=
  ∀ (c : RegIdx) (s : State),
    (∀ a b : RegIdx, decode (standardWord 0xB0000000#32 a b c) = .ok (.inp c)) ∧
    (s.env.inValid.headD true = true →
      ∃ t, exec (.inp c) s = .next t ∧
        (∀ b, s.env.input[s.inPos]? = some b → (t.reg c).toNat = b.toNat ∧ t.inPos = s.inPos + 1) ∧
        (s.env.input.length ≤ s.inPos → t.reg c = 0xFFFFFFFF#32 ∧ t.inPos = s.inPos) ∧
        t.pc = s.pc + 1#32 ∧ SameRegsBut c s t ∧ SameMemory s t ∧ SameControl s t ∧ t.out = s.out ∧ t.cfg = s.cfg ∧
        t.env = { s.env with inValid := s.env.inValid.tail })

/-- While an IN or OUT is held by the host nothing of the machine's state changes; only the transaction is past
(45_io.md sections 2, R119 and the hold of R121, the spec's decisions D17, D18; logs 9, 10). -/
def Obligations.HeldPortChangesNothing : Prop :=
  ∀ (c : RegIdx) (s : State),
    (s.env.inValid.headD true = false →
      exec (.inp c) s = .next { s with env := { s.env with inValid := s.env.inValid.tail } }) ∧
    (s.env.outReady.headD true = false →
      exec (.out c) s = .next { s with env := { s.env with outReady := s.env.outReady.tail } })

/-- R117. A step that is no reset only appends to the output, at most one byte, and never reads it: with any other output
before, the same step appends the same bytes and is otherwise the same. -/
def Obligations.OutputIsAppendedAndNeverRead : Prop :=
  (∀ (s : State) (b : Byte), (s.outByte b).out = s.out ++ [b]) ∧
  ∀ s t : State, s.resetAsserted = false → step s = .next t →
    ∃ bs : List Byte, bs.length ≤ 1 ∧ t.out = s.out ++ bs ∧
      ∀ o : List Byte, step { s with out := o } = .next { t with out := o ++ bs }

/-- The end of input is permanent: once every byte is consumed, no step of a started machine consumes another or changes
the input (45_io.md section 2, the spec's decision D17; log 9). -/
def Obligations.EndOfInputIsSticky : Prop :=
  ∀ s t : State, s.resetAsserted = false → s.status ≠ .idle → s.env.input.length ≤ s.inPos → step s = .next t →
    t.inPos = s.inPos ∧ t.env.input = s.env.input ∧ t.status ≠ .idle

/-! ### Control (46_control.md) -/

/-- HALT (46_control.md) always completes: `pc` is advanced, the status becomes `Halted`, nothing else changes, and no
further cycle is performed. That `pc` ends one past the HALT is the spec's decision D6 (conflict C8, log 13); the unused
fields are ignored by decision D2 (log 4). -/
def Obligations.HaltStopsTheMachine : Prop :=
  ∀ s : State,
    (∀ a b c : RegIdx, decode (standardWord 0x70000000#32 a b c) = .ok .halt) ∧
    ∃ t, exec .halt s = .next t ∧ t.status = .halted ∧ t.pc = s.pc + 1#32 ∧ t.active = s.active ∧ SameRegs s t ∧
      SameMemory s t ∧ SameIO s t ∧ SameParameters s t ∧
      (t.resetAsserted = false → step t = .next t.tickReset)

/-- LOADPROG (46_control.md): it completes when `x[B]` is present, identifier 0 included (the spec's decision D4, log 15),
with `pc` exactly `x[C]`, whatever the length of the target array; nothing is copied and no register is written. Else it
faults `InvalidArray`. -/
def Obligations.LoadprogJumpsExactly : Prop :=
  ∀ (b c : RegIdx) (s : State),
    (s.heap.present (s.reg b) = true →
      ∃ t, exec (.loadprog b c) s = .next t ∧ t.active = s.reg b ∧ t.pc = s.reg c ∧ t.status = s.status ∧
        SameRegs s t ∧ SameMemory s t ∧ SameIO s t ∧ SameParameters s t) ∧
    (s.reg b = 0#32 → s.heap.present (s.reg b) = true) ∧
    (s.heap.present (s.reg b) = false →
      exec (.loadprog b c) s = .next { s with status := .faulted .invalidArray })

/-! ### The cycle, faults, and the whole machine (40_execution_cycle.md, 60_exceptions.md) -/

/-- A step of a running machine runs the instruction its fetch reads, in the state whose sample of the reset input is past
(40_execution_cycle.md section 1). -/
def Obligations.StepRunsTheDecodedInstruction : Prop :=
  ∀ (s : State) (w : Word) (i : Instr), s.resetAsserted = false → s.status = .running →
    s.heap.fetch s.active s.pc = .ok w → decode w = .ok i → i.wellFormed = true → step s = exec i s.tickReset

/-- A running machine whose active array was abandoned faults `InvalidArray`; one whose `pc` is at or past the end faults
`ProgramCounterOutOfBounds`; only the status changes (40_execution_cycle.md section 1, with the spec's decision D5;
log 16). -/
def Obligations.FetchFaultsEndTheRun : Prop :=
  ∀ s : State, s.resetAsserted = false → s.status = .running →
    (s.heap.present s.active = false →
      step s = .next { s.tickReset with status := .faulted .invalidArray }) ∧
    (∀ arr, s.heap.arr? s.active = some arr → arr.len ≤ s.pc →
      step s = .next { s.tickReset with status := .faulted .programCounterOutOfBounds })

/-- R86. A cycle that ends in a fault leaves every other piece of state exactly as it was before the cycle, whichever
instruction, fetch or decode raised it. -/
def Obligations.FaultsArePrecise : Prop :=
  ∀ (s t : State) (r : Reason), s.status = .running → cycle s = .next t → t.status = .faulted r →
    t = { s with status := .faulted r }

/-- The only transitions of the status without reset: `Idle` to `Running`, `Running` to `Halted` by HALT and by nothing
else, `Running` to `Faulted`; a terminal status stays, and with it the whole state (10_state.md section 3;
40_execution_cycle.md section 2; `Idle` is the spec's decision D11, log 1). -/
def Obligations.StatusTransitions : Prop :=
  ∀ s t : State, s.resetAsserted = false → step s = .next t →
    (s.status = .idle → t.status = .idle ∨ t.status = .running) ∧
    (s.status = .running → t.status = .running ∨ (∃ r, t.status = .faulted r) ∨
      (t.status = .halted ∧ currentInstr s = .ok .halt)) ∧
    (s.status = .running → currentInstr s = .ok .halt → t.status = .halted) ∧
    (s.status = .halted → t = s.tickReset) ∧
    (∀ r, s.status = .faulted r → t = s.tickReset)

/-- Only LOADPROG sets `active`; every other instruction leaves `pc` one further, or where it is when it faulted or is
held by a port (40_execution_cycle.md section 1; 46_control.md; 45_io.md section 2). That HALT too leaves `pc` one further
is the spec's own decision D6 (log 13); the wait of IN is signalled by its decision D17 and the model's data (log 9), the hold
of OUT by its D18 and the model's data (log 10). -/
def Obligations.OnlyLoadprogRedirects : Prop :=
  ∀ (i : Instr) (s t : State), s.status = .running → exec i s = .next t → (∀ b c, i ≠ .loadprog b c) →
    t.active = s.active ∧
      (t.pc = s.pc + 1#32 ∨
        (t.pc = s.pc ∧ ((∃ r, t.status = .faulted r) ∨ (∃ c, i = .inp c ∧ s.inOffer = .nothing) ∨
          (∃ c, i = .out c ∧ s.sinkReady = false))))

/-- An instruction writes at most its one destination register, the one the table of 10_state.md section 1 gives it; with
the others it leaves every register as it was. -/
def Obligations.OnlyTheDestinationIsWritten : Prop :=
  ∀ (i : Instr) (s t : State) (r : RegIdx), exec i s = .next t → instrDestination i ≠ some r → t.reg r = s.reg r

/-- An instruction raises no fault but those its rule names (60_exceptions.md sections 1 and 3; the order inside ALLOC is
the spec's decision D19). -/
def Obligations.OnlyTheNamedFaultsAreRaised : Prop :=
  ∀ (i : Instr) (s t : State) (r : Reason), s.status = .running → exec i s = .next t → t.status = .faulted r →
    r ∈ instrFaults i

/-- The program counter never wraps: after a successful fetch, the advanced `pc` is one more as a number (10_state.md
section 2, derived there). -/
def Obligations.AdvancedPcDoesNotWrap : Prop :=
  ∀ (s : State) (w : Word), s.heap.fetch s.active s.pc = .ok w → (s.advance.pc).toNat = s.pc.toNat + 1

/-- R52, with the transitions of identifier states: over one instruction on a canonical heap every identifier's state
moves only as 20_memory.md section 2 allows, and an array that lives on keeps its length. -/
def Obligations.LengthsAndIdentifierStates : Prop :=
  ∀ (i : Instr) (s t : State) (id : Word), s.heap.wf = true → exec i s = .next t →
    (s.heap.idState id).mayBecome (t.heap.idState id) = true

/-- R19. Array 0 is always present and is the program array, and its length does not change once the machine has been
started. -/
def Obligations.ProgramArrayIsPermanent : Prop :=
  ∀ s : State, s.heap.idState 0#32 = .program s.heap.prog ∧ s.heap.present 0#32 = true ∧
    ∀ t, s.resetAsserted = false → s.status ≠ .idle → step s = .next t → t.heap.prog.len = s.heap.prog.len

/-- Every step keeps the invariant of the machine (20_memory.md sections 2, 4 and 7; 10_state.md sections 3, 6 and 7). -/
def Obligations.StepKeepsInvariant : Prop :=
  ∀ s t : State, MachineInv s → step s = .next t → MachineInv t

/-- The machine right after reset has the invariant (10_state.md section 7). -/
def Obligations.ResetHasInvariant : Prop := MachineInv State.reset

/-- No program can tell a freed identifier from one never allocated: two canonical machines that differ in nothing else
make the same step (20_memory.md section 2, its last sentence, derived there). -/
def Obligations.FreedIsLikeNeverAllocated : Prop :=
  ∀ s s' t : State, s.heap.wf = true → s'.heap.wf = true → SameButHistory s s' → step s = .next t →
    ∃ t', step s' = .next t' ∧ SameButHistory t t'

/-- No step changes the parameters of the build, and no step of a started machine changes the input the host fixed
(00_scope.md section 4; 10_state.md section 8). -/
def Obligations.ParametersAreConstant : Prop :=
  ∀ s t : State, step s = .next t → t.cfg = s.cfg ∧ (s.status ≠ .idle → t.env.input = s.env.input)

/-! ### Reset and the load port (70_reset_and_hazards.md) -/

/-- Reset, from any state: every register, `pc` and `active` 0, every nonzero identifier unallocated, array 0 empty,
nothing consumed or emitted, and the machine held (70_reset_and_hazards.md section 1; the registers' value is the spec's
decision D3, reset as a signal D16; logs 2, 11). -/
def Obligations.ResetEstablishesResetValues : Prop :=
  ∀ s : State, s.resetAsserted = true → ∃ t, step s = .next t ∧ (∀ r : RegIdx, t.reg r = 0#32) ∧ t.pc = 0#32 ∧
    t.active = 0#32 ∧ t.status = .idle ∧ (∀ id : Word, id ≠ 0#32 → t.heap.idState id = .unallocated) ∧
    (∀ off : Word, t.heap.peek 0#32 off = none) ∧ t.inPos = 0 ∧ t.out = []

/-- The load port delivers the program: from reset, with the host handing over any words and then `start`, that many steps
and one more reach a running machine at its first cycle whose array 0 is those words, k-th word at `(0, k)`
(70_reset_and_hazards.md section 2; 10_state.md section 7; decision D22, log 1). -/
def Obligations.LoadPortDeliversTheProgram : Prop :=
  ∀ (words : List Word) (cfg : Config) (env : Env), words.length < 2 ^ 32 → env.resetIn = [] →
    ∃ t, Sys2Proof.core.run (words.length + 1)
        ({ State.reset with cfg := cfg, env := { env with load := words.map LoadAct.word ++ LoadAct.start :: env.load } } :
          State) = .next t ∧
      launch cfg env words = some t ∧ t.status = .running ∧ t.pc = 0#32 ∧ t.active = 0#32 ∧
      t.heap.prog.len.toNat = words.length ∧
      ∀ (k : Nat) (hk : k < words.length), t.heap.peek 0#32 (BitVec.ofNat 32 k) = some words[k]

/-- After `start` the load port is dead: what the host would do on it makes no difference to any step
(70_reset_and_hazards.md section 2; the spec's own decision D22). That the script is left whole, through a reset too, so that
its entries wait for the next load, is the model's choice (DESIGN CHOICE, log 24). -/
def Obligations.LoadPortIsDeadAfterStart : Prop :=
  ∀ (s t : State) (l : List LoadAct), s.status ≠ .idle → step s = .next t →
    step { s with env := { s.env with load := l } } = .next { t with env := { t.env with load := l } }

/-- While the machine is held, the host can reach array 0, the input and the start only: no register, `pc`, identifier or
output changes (70_reset_and_hazards.md section 2; 10_state.md section 1). -/
def Obligations.HeldMachineOnlyLoads : Prop :=
  ∀ s t : State, s.resetAsserted = false → s.status = .idle → step s = .next t →
    SameRegs s t ∧ t.pc = s.pc ∧ t.active = s.active ∧ SameIO s t ∧ t.cfg = s.cfg ∧
      (∀ id : Word, id ≠ 0#32 → t.heap.idState id = s.heap.idState id) ∧
      (∀ off : Word, off < s.heap.prog.len → t.heap.peek 0#32 off = s.heap.peek 0#32 off)

/-! ### Ports (10_state.md, 20_memory.md, 45_io.md, 70_reset_and_hazards.md) -/

/-- The status port shows the numbers the spec's tables give: status codes 0 to 3, a reason's code 1 to 7, and fault code 0
when the machine is not faulted (10_state.md section 3, 60_exceptions.md section 1; the numbers are the spec's decisions
D10, D11). So it tells every status from every other, and shows fault code 0 exactly when the machine is not faulted. -/
def Obligations.StatusPortIsFaithful : Prop :=
  (Status.running.statusCode = 0#2 ∧ Status.halted.statusCode = 1#2 ∧ (∀ r, (Status.faulted r).statusCode = 2#2) ∧
    Status.idle.statusCode = 3#2) ∧
  (Reason.illegalOpcode.code = 1#3 ∧ Reason.invalidArray.code = 2#3 ∧ Reason.outOfBounds.code = 3#3 ∧
    Reason.divisionByZero.code = 4#3 ∧ Reason.programCounterOutOfBounds.code = 5#3 ∧
    Reason.outOfIdentifiers.code = 6#3 ∧ Reason.outOfMemory.code = 7#3) ∧
  (∀ r, (Status.faulted r).faultCode = r.code) ∧
  (∀ p q : Status, p.statusCode = q.statusCode → p.faultCode = q.faultCode → p = q) ∧
  (∀ p : Status, p.faultCode = 0#3 ↔ ∀ r, p ≠ .faulted r)

/-- A command of the heap that responds with a fault changes no heap state, READ and FETCH change none at all, and every
command keeps the canonical form (20_memory.md section 7; decision D15). -/
def Obligations.HeapCommandsAreAtomic : Prop :=
  ∀ (h : Heap) (cfg : Config) (cmd : HeapCommand),
    ((h.command cfg cmd).1.ok = false → (h.command cfg cmd).2 = h) ∧
    ((h.command cfg cmd).1.ok = true ↔ (h.command cfg cmd).1.fault = 0#3) ∧
    (∀ id off, (h.command cfg (.read id off)).2 = h ∧ (h.command cfg (.fetch id off)).2 = h) ∧
    (h.wf = true → (h.command cfg cmd).2.wf = true)

/-- `in_take` is asserted exactly when the step consumes a byte, and `out_data` with a ready sink is the byte the step
emits (45_io.md section 2; decisions D17, D18). -/
def Obligations.PortSignalsMatchTheStep : Prop :=
  ∀ s t : State, s.resetAsserted = false → step s = .next t →
    (inTake s = true ↔ t.inPos = s.inPos + 1) ∧
    (∀ b, outOffer s = some b → s.sinkReady = true → t.out = s.out ++ [b]) ∧
    (t.out ≠ s.out → ∃ b, outOffer s = some b ∧ t.out = s.out ++ [b])

/-- The result and the diagnostic view exist exactly in a terminal state. The result is the terminal status (no fault for
`Halted`, the reason for `Faulted`), the bytes emitted and the input consumed; the view is the registers, `pc`, `active` and
the heap. A terminal state keeps both until reset (40_execution_cycle.md section 2; 70_reset_and_hazards.md section 5; the
view is the spec's decision D24). -/
def Obligations.ResultAfterTheEnd : Prop :=
  ∀ s : State, (s.result.isSome = s.status.terminal) ∧ (s.diagnostic.isSome = s.status.terminal) ∧
    (s.status = .halted → s.result = some { fault := none, output := s.out, consumed := s.inPos }) ∧
    (∀ r, s.status = .faulted r → s.result = some { fault := some r, output := s.out, consumed := s.inPos }) ∧
    (∀ d, s.diagnostic = some d → d.x = s.x ∧ d.pc = s.pc ∧ d.active = s.active ∧ d.heap = s.heap) ∧
    (s.status.terminal = true → s.resetAsserted = false →
      ∃ t, step s = .next t ∧ t.result = s.result ∧ t.diagnostic = s.diagnostic)
end

