-- ==== Sys2Proof/Laws/Sparse.lean ====
section
/-! SUPPORT. The laws of the finite tables: reading after a write, and that writes keep the keys strictly rising. -/

namespace Sys2Proof.Machine

variable {α : Type}

@[simp] theorem sparseFind_nil (k : Nat) : sparseFind k ([] : List (Nat × α)) = none := rfl

theorem sparseFind_cons (k j : Nat) (v : α) (l : List (Nat × α)) :
    sparseFind k ((j, v) :: l) = if j = k then some v else sparseFind k l := rfl

theorem sparseFind_insert (k q : Nat) (v : α) (l : List (Nat × α)) :
    sparseFind q (sparseInsert k v l) = if k = q then some v else sparseFind q l := by
  induction l with
  | nil => simp [sparseInsert, sparseFind]
  | cons e l ih =>
    obtain ⟨j, u⟩ := e
    unfold sparseInsert
    split
    · rfl
    · split
      · rename_i h; subst h; simp only [sparseFind]; split <;> simp_all
      · simp only [sparseFind, ih]
        split <;> split <;> simp_all

theorem sparseFind_erase (k q : Nat) (l : List (Nat × α)) :
    sparseFind q (sparseErase k l) = if k = q then none else sparseFind q l := by
  induction l with
  | nil => simp [sparseErase, sparseFind]
  | cons e l ih =>
    obtain ⟨j, u⟩ := e
    unfold sparseErase
    by_cases hjk : j = k
    · rw [if_pos hjk, ih, sparseFind_cons, hjk]
      split <;> simp_all
    · rw [if_neg hjk, sparseFind_cons, sparseFind_cons, ih]
      by_cases hjq : j = q
      · rw [if_pos hjq, if_pos hjq, if_neg (fun h => hjk (hjq.trans h.symm))]
      · rw [if_neg hjq, if_neg hjq]

theorem mem_of_sparseFind {k : Nat} {v : α} {l : List (Nat × α)} (h : sparseFind k l = some v) : (k, v) ∈ l := by
  induction l with
  | nil => simp at h
  | cons e l ih =>
    obtain ⟨j, u⟩ := e
    rw [sparseFind_cons] at h
    split at h
    · simp_all
    · exact List.mem_cons_of_mem _ (ih h)

/-- In a rising table an entry is what is found under its key. -/
theorem sparseFind_of_mem {k : Nat} {v : α} {l : List (Nat × α)} (hs : sparseSorted l = true) (h : (k, v) ∈ l) :
    sparseFind k l = some v := by
  induction l with
  | nil => simp at h
  | cons e l ih =>
    obtain ⟨j, u⟩ := e
    simp only [sparseSorted, Bool.and_eq_true, List.all_eq_true, decide_eq_true_eq] at hs
    rw [sparseFind_cons]
    rcases List.mem_cons.mp h with h | h
    · simp_all
    · have := hs.1 _ h
      rw [if_neg (by simp only at this; omega)]
      exact ih hs.2 h

theorem mem_sparseInsert {k : Nat} {v : α} {l : List (Nat × α)} {e : Nat × α} (h : e ∈ sparseInsert k v l) :
    e = (k, v) ∨ e ∈ l := by
  induction l with
  | nil => simpa [sparseInsert] using h
  | cons d l ih =>
    obtain ⟨j, u⟩ := d
    unfold sparseInsert at h
    split at h
    · simpa using h
    · split at h
      · rcases List.mem_cons.mp h with h | h
        · exact .inl h
        · exact .inr (List.mem_cons_of_mem _ h)
      · rcases List.mem_cons.mp h with h | h
        · exact .inr (by simp [h])
        · exact (ih h).imp id (List.mem_cons_of_mem _)

theorem mem_sparseErase {k : Nat} {l : List (Nat × α)} {e : Nat × α} (h : e ∈ sparseErase k l) : e ∈ l := by
  induction l with
  | nil => simp [sparseErase] at h
  | cons d l ih =>
    obtain ⟨j, u⟩ := d
    unfold sparseErase at h
    split at h
    · exact List.mem_cons_of_mem _ (ih h)
    · rcases List.mem_cons.mp h with h | h
      · simp [h]
      · exact List.mem_cons_of_mem _ (ih h)

theorem sparseSorted_insert {k : Nat} {v : α} {l : List (Nat × α)} (h : sparseSorted l = true) :
    sparseSorted (sparseInsert k v l) = true := by
  induction l with
  | nil => simp [sparseInsert, sparseSorted]
  | cons d l ih =>
    obtain ⟨j, u⟩ := d
    have h' := h
    simp only [sparseSorted, Bool.and_eq_true, List.all_eq_true, decide_eq_true_eq] at h'
    unfold sparseInsert
    split
    · rename_i hk
      simp only [sparseSorted, Bool.and_eq_true, List.all_eq_true, decide_eq_true_eq]
      exact ⟨fun e he => (List.mem_cons.mp he).elim (fun h => by simp [h, hk]) (fun he => lt_trans hk (h'.1 e he)), h'⟩
    · split
      · rename_i hk
        subst hk
        simpa only [sparseSorted] using h
      · rename_i h1 h2
        simp only [sparseSorted, Bool.and_eq_true, List.all_eq_true, decide_eq_true_eq]
        refine ⟨fun e he => ?_, ih h'.2⟩
        rcases mem_sparseInsert he with he | he
        · simp only [he]; omega
        · exact h'.1 e he

theorem sparseSorted_erase {k : Nat} {l : List (Nat × α)} (h : sparseSorted l = true) :
    sparseSorted (sparseErase k l) = true := by
  induction l with
  | nil => rfl
  | cons d l ih =>
    obtain ⟨j, u⟩ := d
    simp only [sparseSorted, Bool.and_eq_true, List.all_eq_true, decide_eq_true_eq] at h
    unfold sparseErase
    split
    · exact ih h.2
    · simp only [sparseSorted, Bool.and_eq_true, List.all_eq_true, decide_eq_true_eq]
      exact ⟨fun e he => h.1 e (mem_sparseErase he), ih h.2⟩

/-- A check that holds of every entry holds after a listed value that meets it. -/
theorem all_sparseInsert {k : Nat} {v : α} {l : List (Nat × α)} {p : Nat × α → Bool} (hl : l.all p = true)
    (hv : p (k, v) = true) : (sparseInsert k v l).all p = true := by
  rw [List.all_eq_true] at hl ⊢
  intro e he
  rcases mem_sparseInsert he with rfl | he
  · exact hv
  · exact hl e he

theorem all_sparseErase {k : Nat} {l : List (Nat × α)} {p : Nat × α → Bool} (hl : l.all p = true) :
    (sparseErase k l).all p = true := by
  rw [List.all_eq_true] at hl ⊢
  exact fun e he => hl e (mem_sparseErase he)

end Sys2Proof.Machine
end

