-- ==== Sys2Proof/Laws/Heap.lean ====
section
/-! SUPPORT. The laws of the heap operations (spec 20_memory.md): what each does, said once; read after write; and that
every operation keeps the memory's canonical form. -/

namespace Sys2Proof.Machine

/-! ### Arrays -/

@[simp] theorem Arr.write_len (a : Arr) (off v : Word) : (a.write off v).len = a.len := rfl
@[simp] theorem Arr.zeros_len (n : Word) : (Arr.zeros n).len = n := rfl
@[simp] theorem Arr.zeros_read (n off : Word) : (Arr.zeros n).read off = 0#32 := rfl
@[simp] theorem Arr.zeros_wf (n : Word) : (Arr.zeros n).wf = true := rfl
@[simp] theorem Arr.empty_wf : Arr.empty.wf = true := rfl

/-- Read after write (R36, R37). -/
theorem Arr.write_read (a : Arr) (off v q : Word) :
    (a.write off v).read q = if q = off then v else a.read q := by
  simp only [Arr.read, Arr.write]
  have key : off.toNat = q.toNat ↔ q = off := by rw [← BitVec.toNat_inj, eq_comm]
  split
  · rename_i h
    rw [sparseFind_erase]
    simp only [key]
    split <;> simp_all
  · rw [sparseFind_insert]
    simp only [key]
    split <;> simp_all

theorem Arr.wf_iff (a : Arr) :
    a.wf = true ↔ sparseSorted a.cells = true ∧
      a.cells.all (fun e => decide (e.1 < a.len.toNat) && e.2 != 0#32) = true := by
  simp only [Arr.wf, Bool.and_eq_true]

/-- A store below the length keeps the canonical form. -/
theorem Arr.write_wf {a : Arr} {off v : Word} (h : a.wf = true) (ho : off < a.len) : (a.write off v).wf = true := by
  rw [Arr.wf_iff] at h ⊢
  simp only [Arr.write]
  split
  · exact ⟨sparseSorted_erase h.1, all_sparseErase h.2⟩
  · rename_i hv
    refine ⟨sparseSorted_insert h.1, all_sparseInsert h.2 ?_⟩
    have : off.toNat < a.len.toNat := ho
    simp [this, hv]

/-- The load port's append keeps the canonical form and adds one Word. -/
theorem Arr.append_some {a a' : Arr} {v : Word} (h : a.append v = some a') :
    a.len ≠ allOnes ∧ a' = ({ a with len := a.len + 1#32 } : Arr).write a.len v := by
  unfold Arr.append at h
  split at h
  · simp at h
  · rename_i hl
    exact ⟨hl, by simpa using h.symm⟩

theorem toNat_add_one {w : Word} (h : w ≠ allOnes) : (w + 1#32).toNat = w.toNat + 1 := by
  have h1 : w.toNat ≠ 4294967295 := fun hw => h (BitVec.eq_of_toNat_eq (by simpa using hw))
  have h2 := w.isLt
  simp only [BitVec.toNat_add, BitVec.toNat_ofNat]
  omega

theorem Arr.append_wf {a a' : Arr} {v : Word} (hw : a.wf = true) (h : a.append v = some a') : a'.wf = true := by
  obtain ⟨hl, rfl⟩ := Arr.append_some h
  have hlen := toNat_add_one hl
  refine Arr.write_wf ?_ ?_
  · rw [Arr.wf_iff] at hw ⊢
    refine ⟨hw.1, ?_⟩
    have := hw.2
    simp only [List.all_eq_true, Bool.and_eq_true, decide_eq_true_eq] at this ⊢
    exact fun e he => ⟨by have := (this e he).1; omega, (this e he).2⟩
  · show a.len.toNat < (a.len + 1#32).toNat
    omega

/-! ### Identifier states -/

@[simp] theorem Heap.idState_zero (h : Heap) : h.idState 0#32 = .program h.prog := rfl
@[simp] theorem Heap.arr?_zero (h : Heap) : h.arr? 0#32 = some h.prog := rfl
@[simp] theorem Heap.present_zero (h : Heap) : h.present 0#32 = true := rfl

theorem Heap.idState_of_ne {h : Heap} {id : Word} (hid : id ≠ 0#32) :
    h.idState id = match sparseFind id.toNat h.ids with
      | none => .unallocated
      | some (.allocated a) => .allocated a
      | some .freed => .freed := by
  exact if_neg hid

theorem toNat_pos {w : Word} (h : w ≠ 0#32) : 0 < w.toNat :=
  Nat.pos_of_ne_zero fun h0 => h (BitVec.eq_of_toNat_eq (by simpa using h0))

theorem toNat_eq_iff (v w : Word) : v.toNat = w.toNat ↔ w = v := by rw [← BitVec.toNat_inj, eq_comm]

@[simp] theorem Heap.setProg_prog (h : Heap) (a : Arr) : (h.setProg a).prog = a := rfl
@[simp] theorem Heap.setProg_ids (h : Heap) (a : Arr) : (h.setProg a).ids = h.ids := rfl
@[simp] theorem Heap.putSlot_prog (h : Heap) (id : Word) (sl : Slot) : (h.putSlot id sl).prog = h.prog := rfl
@[simp] theorem Heap.putSlot_ids (h : Heap) (id : Word) (sl : Slot) :
    (h.putSlot id sl).ids = sparseInsert id.toNat sl h.ids := rfl

/-- The identifier state an entry stands for. -/
def Slot.idState : Slot → IdState
  | .allocated a => .allocated a
  | .freed => .freed

/-- Storing an entry under a nonzero identifier changes that identifier's state only. -/
theorem Heap.putSlot_idState (h : Heap) {id : Word} (hid : id ≠ 0#32) (sl : Slot) (q : Word) :
    (h.putSlot id sl).idState q = if q = id then sl.idState else h.idState q := by
  by_cases hq : q = 0#32
  · subst hq
    rw [if_neg (Ne.symm hid)]
    rfl
  · rw [Heap.idState_of_ne hq, Heap.putSlot_ids, sparseFind_insert, if_congr (toNat_eq_iff id q) rfl rfl]
    by_cases h1 : q = id
    · simp only [h1, if_true]
      cases sl <;> rfl
    · simp only [h1, if_false]
      rw [Heap.idState_of_ne hq]

/-- An allocated identifier is listed as allocated. -/
theorem Heap.idState_allocated {h : Heap} {id : Word} {a : Arr} :
    h.idState id = .allocated a ↔ id ≠ 0#32 ∧ sparseFind id.toNat h.ids = some (.allocated a) := by
  by_cases hid : id = 0#32
  · simp [hid, Heap.idState]
  · rw [Heap.idState_of_ne hid]
    constructor
    · intro h1
      refine ⟨hid, ?_⟩
      split at h1 <;> simp_all
    · rintro ⟨-, h1⟩
      simp [h1]

/-- A present identifier is 0 or allocated (R33). -/
theorem Heap.arr?_some {h : Heap} {id : Word} {a : Arr} :
    h.arr? id = some a ↔ (id = 0#32 ∧ h.prog = a) ∨ h.idState id = .allocated a := by
  by_cases hid : id = 0#32
  · subst hid
    simp
  · unfold Heap.arr?
    have : h.idState id ≠ .program h.prog ∧ ∀ b, h.idState id ≠ .program b := by
      rw [Heap.idState_of_ne hid]
      constructor
      · split <;> simp
      · intro b; split <;> simp
    split <;> simp_all

theorem Heap.arr?_of_idState {h h' : Heap} {q : Word} (e : h'.idState q = h.idState q) : h'.arr? q = h.arr? q := by
  simp only [Heap.arr?, e]

theorem Heap.peek_of_idState {h h' : Heap} {q off : Word} (e : h'.idState q = h.idState q) :
    h'.peek q off = h.peek q off := by
  simp only [Heap.peek, Heap.arr?_of_idState e]

/-- `setArr` changes the state of its own identifier only. -/
theorem Heap.setArr_idState (h : Heap) (id : Word) (a : Arr) (q : Word) :
    (h.setArr id a).idState q = if q = id then (if id = 0#32 then .program a else .allocated a) else h.idState q := by
  unfold Heap.setArr
  by_cases hid : id = 0#32
  · subst hid
    by_cases hq : q = 0#32
    · subst hq; rfl
    · rw [if_pos rfl, if_neg hq, Heap.idState_of_ne hq, Heap.idState_of_ne hq, Heap.setProg_ids]
  · rw [if_neg hid, if_neg hid]
    exact h.putSlot_idState hid (.allocated a) q

theorem Heap.setArr_arr? (h : Heap) (id : Word) (a : Arr) (q : Word) :
    (h.setArr id a).arr? q = if q = id then some a else h.arr? q := by
  split
  · rename_i hq
    subst hq
    simp only [Heap.arr?, Heap.setArr_idState]
    by_cases h0 : q = 0#32 <;> simp [h0]
  · rename_i hq
    exact Heap.arr?_of_idState (by rw [Heap.setArr_idState, if_neg hq])

/-! ### Checks, read and write -/

/-- The checks of a data access (R35), all they can answer. -/
theorem Heap.checked_cases (h : Heap) (id off : Word) :
    (h.arr? id = none ∧ h.checked id off = .error .invalidArray) ∨
    (∃ a, h.arr? id = some a ∧ a.len ≤ off ∧ h.checked id off = .error .outOfBounds) ∨
    (∃ a, h.arr? id = some a ∧ off < a.len ∧ h.checked id off = .ok a) := by
  unfold Heap.checked
  cases h1 : h.arr? id with
  | none => simp
  | some a =>
    by_cases h2 : a.len ≤ off
    · exact .inr (.inl ⟨a, rfl, h2, if_pos h2⟩)
    · exact .inr (.inr ⟨a, rfl, BitVec.not_le.mp h2, if_neg h2⟩)

theorem Heap.memRead_ok {h : Heap} {id off v : Word} :
    h.memRead id off = .ok v ↔ ∃ a, h.arr? id = some a ∧ off < a.len ∧ v = a.read off := by
  unfold Heap.memRead
  rcases h.checked_cases id off with ⟨h1, h2⟩ | ⟨a, h1, h2, h3⟩ | ⟨a, h1, h2, h3⟩
  · simp [h1, h2]
  · simp [h1, h3, BitVec.not_lt.mpr h2]
  · rw [h3]
    simp only [h1, Except.ok.injEq, Option.some.injEq, exists_eq_left', h2, true_and]
    exact eq_comm

theorem Heap.memWrite_ok {h h' : Heap} {id off v : Word} :
    h.memWrite id off v = .ok h' ↔ ∃ a, h.arr? id = some a ∧ off < a.len ∧ h' = h.setArr id (a.write off v) := by
  unfold Heap.memWrite
  rcases h.checked_cases id off with ⟨h1, h2⟩ | ⟨a, h1, h2, h3⟩ | ⟨a, h1, h2, h3⟩
  · simp [h1, h2]
  · simp [h1, h3, BitVec.not_lt.mpr h2]
  · rw [h3]
    simp only [h1, Except.ok.injEq, Option.some.injEq, exists_eq_left', h2, true_and]
    exact eq_comm

theorem Heap.fetch_ok {h : Heap} {id off v : Word} :
    h.fetch id off = .ok v ↔ ∃ a, h.arr? id = some a ∧ off < a.len ∧ v = a.read off := by
  unfold Heap.fetch
  cases h1 : h.arr? id with
  | none => simp
  | some a =>
    by_cases h2 : a.len ≤ off
    · simp [h2, BitVec.not_lt.mpr h2]
    · simp only [h2, if_false, Except.ok.injEq, Option.some.injEq, exists_eq_left', BitVec.not_le.mp h2, true_and]
      exact eq_comm

/-- What an observer reads is what a data read answers. -/
theorem Heap.peek_some {h : Heap} {id off v : Word} :
    h.peek id off = some v ↔ ∃ a, h.arr? id = some a ∧ off < a.len ∧ v = a.read off := by
  unfold Heap.peek
  cases h1 : h.arr? id with
  | none => simp
  | some a =>
    by_cases h2 : off < a.len
    · simp only [h2, if_true, Option.some.injEq, exists_eq_left', true_and]
      exact eq_comm
    · simp [h2]

/-- Memory after a store, Word by Word (R37). -/
theorem Heap.peek_setArr_write {h : Heap} {id off v : Word} {a : Arr} (ha : h.arr? id = some a) (ho : off < a.len)
    (q p : Word) :
    (h.setArr id (a.write off v)).peek q p = if q = id ∧ p = off then some v else h.peek q p := by
  unfold Heap.peek
  rw [Heap.setArr_arr?]
  by_cases hq : q = id
  · subst hq
    simp only [if_true, true_and, Arr.write_len, Arr.write_read, ha]
    by_cases hp : p = off
    · subst hp; simp [ho]
    · simp [hp]
  · simp [hq]

/-! ### The canonical form -/

theorem Heap.wf_iff (h : Heap) :
    h.wf = true ↔ h.prog.wf = true ∧ sparseSorted h.ids = true ∧
      h.ids.all (fun e => decide (0 < e.1) && decide (e.1 < 2 ^ 32) && e.2.wf) = true := by
  simp only [Heap.wf, Bool.and_eq_true, and_assoc]

@[simp] theorem Heap.empty_wf : Heap.empty.wf = true := rfl

/-- Storing a canonical entry under a nonzero identifier keeps the canonical form. -/
theorem Heap.putSlot_wf {h : Heap} {id : Word} {sl : Slot} (hw : h.wf = true) (hid : id ≠ 0#32)
    (hs : sl.wf = true) : (h.putSlot id sl).wf = true := by
  rw [Heap.wf_iff] at hw ⊢
  refine ⟨hw.1, sparseSorted_insert hw.2.1, all_sparseInsert hw.2.2 ?_⟩
  simp only [toNat_pos hid, hs, decide_true, Bool.true_and, Bool.and_true, decide_eq_true_eq]
  exact id.isLt

theorem Heap.setArr_wf {h : Heap} {id : Word} {a : Arr} (hw : h.wf = true) (ha : a.wf = true) :
    (h.setArr id a).wf = true := by
  unfold Heap.setArr
  split
  · rw [Heap.wf_iff] at hw ⊢
    exact ⟨ha, hw.2⟩
  · rename_i hid
    exact Heap.putSlot_wf hw hid ha

/-- A present array is canonical in a canonical heap. -/
theorem Heap.arr?_wf {h : Heap} {id : Word} {a : Arr} (hw : h.wf = true) (ha : h.arr? id = some a) : a.wf = true := by
  rw [Heap.wf_iff] at hw
  rcases Heap.arr?_some.mp ha with ⟨-, rfl⟩ | h1
  · exact hw.1
  · have := mem_of_sparseFind (Heap.idState_allocated.mp h1).2
    have := (List.all_eq_true.mp hw.2.2) _ this
    simp only [Bool.and_eq_true] at this
    exact this.2

/-- A store keeps the canonical form. -/
theorem Heap.memWrite_wf {h h' : Heap} {id off v : Word} (hw : h.wf = true) (e : h.memWrite id off v = .ok h') :
    h'.wf = true := by
  obtain ⟨a, ha, ho, rfl⟩ := Heap.memWrite_ok.mp e
  exact Heap.setArr_wf hw (Arr.write_wf (Heap.arr?_wf hw ha) ho)

/-! ### Allocation and abandonment -/

/-- All that ALLOCATE can answer (R38). -/
theorem Heap.allocate_cases (h : Heap) (cfg : Config) (n : Word) :
    (cfg.idMax.toNat < firstFree 1 h.ids ∧ h.allocate cfg n = .error .outOfIdentifiers) ∨
    (firstFree 1 h.ids ≤ cfg.idMax.toNat ∧ h.fits cfg n = false ∧ h.allocate cfg n = .error .outOfMemory) ∨
    (firstFree 1 h.ids ≤ cfg.idMax.toNat ∧ h.fits cfg n = true ∧
      h.allocate cfg n = .ok (BitVec.ofNat 32 (firstFree 1 h.ids),
        h.putSlot (BitVec.ofNat 32 (firstFree 1 h.ids)) (.allocated (Arr.zeros n)))) := by
  unfold Heap.allocate
  by_cases h1 : cfg.idMax.toNat < firstFree 1 h.ids
  · simp [h1]
  · cases h2 : h.fits cfg n <;> simp [h1] <;> omega

theorem le_firstFree (k : Nat) (l : List (Nat × Slot)) : k ≤ firstFree k l := by
  induction l generalizing k with
  | nil => exact le_refl k
  | cons e l ih =>
    obtain ⟨j, sl⟩ := e
    cases sl <;> unfold firstFree
    · split
      · exact ih k
      · split
        · exact le_trans (Nat.le_succ k) (ih (k + 1))
        · exact le_refl k
    · split
      · exact ih k
      · exact le_refl k

/-- In a rising table nothing below its first key is listed. -/
theorem sparseFind_below {α : Type} {k j : Nat} {v : α} {l : List (Nat × α)} (hs : sparseSorted ((j, v) :: l) = true)
    (hk : k < j) : sparseFind k ((j, v) :: l) = none := by
  by_contra hc
  obtain ⟨u, hu⟩ := Option.ne_none_iff_exists'.mp hc
  simp only [sparseSorted, Bool.and_eq_true, List.all_eq_true, decide_eq_true_eq] at hs
  rcases List.mem_cons.mp (mem_of_sparseFind hu) with h | h
  · simp only [Prod.mk.injEq] at h; omega
  · have := hs.1 _ h; simp only at this; omega

/-- "the smallest id in 1..`ID_MAX` with idstate(id) != allocated" (R38): what the scan finds is not listed as allocated,
and everything from `k` up to it is. -/
theorem firstFree_spec {k : Nat} {l : List (Nat × Slot)} (hs : sparseSorted l = true) :
    (∀ a, sparseFind (firstFree k l) l ≠ some (.allocated a)) ∧
      ∀ q, k ≤ q → q < firstFree k l → ∃ a, sparseFind q l = some (.allocated a) := by
  induction l generalizing k with
  | nil => exact ⟨by simp, fun q h1 h2 => absurd h2 (by simpa [firstFree] using h1)⟩
  | cons e l ih =>
    obtain ⟨j, sl⟩ := e
    have hs' := hs
    simp only [sparseSorted, Bool.and_eq_true, List.all_eq_true, decide_eq_true_eq] at hs'
    have below := fun q (h : q < j) => sparseFind_below hs h
    have skip : j < k → (∀ a, sparseFind (firstFree k l) ((j, sl) :: l) ≠ some (.allocated a)) ∧
        ∀ q, k ≤ q → q < firstFree k l → ∃ a, sparseFind q ((j, sl) :: l) = some (.allocated a) := by
      intro h
      have hl := le_firstFree k l
      refine ⟨?_, fun q h1 h2 => ?_⟩
      · rw [sparseFind_cons, if_neg (by omega)]
        exact (ih hs'.2).1
      · rw [sparseFind_cons, if_neg (by omega)]
        exact (ih hs'.2).2 q h1 h2
    cases sl with
    | freed =>
      unfold firstFree
      split
      · rename_i h; exact skip h
      · refine ⟨fun a => ?_, fun q h1 h2 => by omega⟩
        rcases Nat.lt_or_ge k j with h | h
        · rw [below k h]; simp
        · rw [sparseFind_cons, if_pos (by omega)]; simp
    | allocated b =>
      unfold firstFree
      split
      · rename_i h; exact skip h
      · split
        · rename_i h
          subst h
          have hl := le_firstFree (j + 1) l
          refine ⟨?_, fun q h1 h2 => ?_⟩
          · rw [sparseFind_cons, if_neg (by omega)]
            exact (ih hs'.2).1
          · rw [sparseFind_cons]
            split
            · exact ⟨b, rfl⟩
            · exact (ih hs'.2).2 q (by omega) h2
        · refine ⟨fun a => ?_, fun q h1 h2 => by omega⟩
          rw [below k (by omega)]; simp

/-- A successful allocation (R38): the identifier is nonzero, at most `ID_MAX`, and its state alone changes, to a new
array of `n` zeros. -/
theorem Heap.allocate_ok {h h' : Heap} {cfg : Config} {n id : Word} (e : h.allocate cfg n = .ok (id, h')) :
    id ≠ 0#32 ∧ id.toNat = firstFree 1 h.ids ∧ id.toNat ≤ cfg.idMax.toNat ∧ h.fits cfg n = true ∧
      h' = h.putSlot id (.allocated (Arr.zeros n)) := by
  rcases h.allocate_cases cfg n with ⟨-, h1⟩ | ⟨-, -, h1⟩ | ⟨h0, h2, h1⟩
  · simp [h1] at e
  · simp [h1] at e
  · rw [h1] at e
    simp only [Except.ok.injEq, Prod.mk.injEq] at e
    have hlt := cfg.idMax.isLt
    have hid : id.toNat = firstFree 1 h.ids := by
      rw [← e.1, BitVec.toNat_ofNat, Nat.mod_eq_of_lt (by omega)]
    have := le_firstFree 1 h.ids
    exact ⟨fun h3 => by simp [h3] at hid; omega, hid, by omega, h2, by rw [← e.2, e.1]⟩

theorem Heap.allocate_wf {h h' : Heap} {cfg : Config} {n id : Word} (hw : h.wf = true)
    (e : h.allocate cfg n = .ok (id, h')) : h'.wf = true := by
  obtain ⟨h0, -, -, -, rfl⟩ := Heap.allocate_ok e
  exact Heap.putSlot_wf hw h0 (Arr.zeros_wf n)

/-- All that ABANDON can answer (R39). -/
theorem Heap.abandon_ok {h h' : Heap} {id : Word} :
    h.abandon id = .ok h' ↔ (∃ a, h.idState id = .allocated a) ∧
      h' = h.putSlot id .freed := by
  unfold Heap.abandon
  cases h.idState id <;> simp [eq_comm]

theorem Heap.abandon_error {h : Heap} {id : Word} {r : Reason} (e : h.abandon id = .error r) : r = .invalidArray := by
  unfold Heap.abandon at e
  cases h1 : h.idState id <;> simp [h1] at e <;> exact e.symm

theorem Heap.abandon_wf {h h' : Heap} {id : Word} (hw : h.wf = true) (e : h.abandon id = .ok h') : h'.wf = true := by
  obtain ⟨⟨a, ha⟩, rfl⟩ := Heap.abandon_ok.mp e
  exact Heap.putSlot_wf hw (Heap.idState_allocated.mp ha).1 rfl

end Sys2Proof.Machine
end

