-- ==== Sys2Proof/Laws/State.lean ====
section
/-! SUPPORT. The small lemmas of the state's updates: one per field per update, all by unfolding, so that no later proof
unfolds a record update. -/

namespace Sys2Proof.Machine

/-! ### setReg -/

@[simp] theorem State.setReg_x (s : State) (i : RegIdx) (v : Word) : (s.setReg i v).x = s.x.set i v := rfl
@[simp] theorem State.setReg_pc (s : State) (i : RegIdx) (v : Word) : (s.setReg i v).pc = s.pc := rfl
@[simp] theorem State.setReg_active (s : State) (i : RegIdx) (v : Word) : (s.setReg i v).active = s.active := rfl
@[simp] theorem State.setReg_status (s : State) (i : RegIdx) (v : Word) : (s.setReg i v).status = s.status := rfl
@[simp] theorem State.setReg_heap (s : State) (i : RegIdx) (v : Word) : (s.setReg i v).heap = s.heap := rfl
@[simp] theorem State.setReg_inPos (s : State) (i : RegIdx) (v : Word) : (s.setReg i v).inPos = s.inPos := rfl
@[simp] theorem State.setReg_out (s : State) (i : RegIdx) (v : Word) : (s.setReg i v).out = s.out := rfl
@[simp] theorem State.setReg_cfg (s : State) (i : RegIdx) (v : Word) : (s.setReg i v).cfg = s.cfg := rfl
@[simp] theorem State.setReg_env (s : State) (i : RegIdx) (v : Word) : (s.setReg i v).env = s.env := rfl

/-! ### advance -/

@[simp] theorem State.advance_x (s : State) : (s.advance).x = s.x := rfl
@[simp] theorem State.advance_pc (s : State) : (s.advance).pc = s.pc + 1#32 := rfl
@[simp] theorem State.advance_active (s : State) : (s.advance).active = s.active := rfl
@[simp] theorem State.advance_status (s : State) : (s.advance).status = s.status := rfl
@[simp] theorem State.advance_heap (s : State) : (s.advance).heap = s.heap := rfl
@[simp] theorem State.advance_inPos (s : State) : (s.advance).inPos = s.inPos := rfl
@[simp] theorem State.advance_out (s : State) : (s.advance).out = s.out := rfl
@[simp] theorem State.advance_cfg (s : State) : (s.advance).cfg = s.cfg := rfl
@[simp] theorem State.advance_env (s : State) : (s.advance).env = s.env := rfl
@[simp] theorem State.advance_reg (s : State) (r : RegIdx) : (s.advance).reg r = s.reg r := rfl

/-! ### setHeap -/

@[simp] theorem State.setHeap_x (s : State) (h : Heap) : (s.setHeap h).x = s.x := rfl
@[simp] theorem State.setHeap_pc (s : State) (h : Heap) : (s.setHeap h).pc = s.pc := rfl
@[simp] theorem State.setHeap_active (s : State) (h : Heap) : (s.setHeap h).active = s.active := rfl
@[simp] theorem State.setHeap_status (s : State) (h : Heap) : (s.setHeap h).status = s.status := rfl
@[simp] theorem State.setHeap_heap (s : State) (h : Heap) : (s.setHeap h).heap = h := rfl
@[simp] theorem State.setHeap_inPos (s : State) (h : Heap) : (s.setHeap h).inPos = s.inPos := rfl
@[simp] theorem State.setHeap_out (s : State) (h : Heap) : (s.setHeap h).out = s.out := rfl
@[simp] theorem State.setHeap_cfg (s : State) (h : Heap) : (s.setHeap h).cfg = s.cfg := rfl
@[simp] theorem State.setHeap_env (s : State) (h : Heap) : (s.setHeap h).env = s.env := rfl
@[simp] theorem State.setHeap_reg (s : State) (h : Heap) (r : RegIdx) : (s.setHeap h).reg r = s.reg r := rfl

/-! ### jump -/

@[simp] theorem State.jump_x (s : State) (id t : Word) : (s.jump id t).x = s.x := rfl
@[simp] theorem State.jump_pc (s : State) (id t : Word) : (s.jump id t).pc = t := rfl
@[simp] theorem State.jump_active (s : State) (id t : Word) : (s.jump id t).active = id := rfl
@[simp] theorem State.jump_status (s : State) (id t : Word) : (s.jump id t).status = s.status := rfl
@[simp] theorem State.jump_heap (s : State) (id t : Word) : (s.jump id t).heap = s.heap := rfl
@[simp] theorem State.jump_inPos (s : State) (id t : Word) : (s.jump id t).inPos = s.inPos := rfl
@[simp] theorem State.jump_out (s : State) (id t : Word) : (s.jump id t).out = s.out := rfl
@[simp] theorem State.jump_cfg (s : State) (id t : Word) : (s.jump id t).cfg = s.cfg := rfl
@[simp] theorem State.jump_env (s : State) (id t : Word) : (s.jump id t).env = s.env := rfl
@[simp] theorem State.jump_reg (s : State) (id t : Word) (r : RegIdx) : (s.jump id t).reg r = s.reg r := rfl

/-! ### halt -/

@[simp] theorem State.halt_x (s : State) : (s.halt).x = s.x := rfl
@[simp] theorem State.halt_pc (s : State) : (s.halt).pc = s.pc := rfl
@[simp] theorem State.halt_active (s : State) : (s.halt).active = s.active := rfl
@[simp] theorem State.halt_status (s : State) : (s.halt).status = .halted := rfl
@[simp] theorem State.halt_heap (s : State) : (s.halt).heap = s.heap := rfl
@[simp] theorem State.halt_inPos (s : State) : (s.halt).inPos = s.inPos := rfl
@[simp] theorem State.halt_out (s : State) : (s.halt).out = s.out := rfl
@[simp] theorem State.halt_cfg (s : State) : (s.halt).cfg = s.cfg := rfl
@[simp] theorem State.halt_env (s : State) : (s.halt).env = s.env := rfl
@[simp] theorem State.halt_reg (s : State) (r : RegIdx) : (s.halt).reg r = s.reg r := rfl

/-! ### tickReset -/

@[simp] theorem State.tickReset_x (s : State) : (s.tickReset).x = s.x := rfl
@[simp] theorem State.tickReset_pc (s : State) : (s.tickReset).pc = s.pc := rfl
@[simp] theorem State.tickReset_active (s : State) : (s.tickReset).active = s.active := rfl
@[simp] theorem State.tickReset_status (s : State) : (s.tickReset).status = s.status := rfl
@[simp] theorem State.tickReset_heap (s : State) : (s.tickReset).heap = s.heap := rfl
@[simp] theorem State.tickReset_inPos (s : State) : (s.tickReset).inPos = s.inPos := rfl
@[simp] theorem State.tickReset_out (s : State) : (s.tickReset).out = s.out := rfl
@[simp] theorem State.tickReset_cfg (s : State) : (s.tickReset).cfg = s.cfg := rfl
@[simp] theorem State.tickReset_env (s : State) : (s.tickReset).env = { s.env with resetIn := s.env.resetIn.tail } := rfl
@[simp] theorem State.tickReset_reg (s : State) (r : RegIdx) : (s.tickReset).reg r = s.reg r := rfl

/-! ### tickOut -/

@[simp] theorem State.tickOut_x (s : State) : (s.tickOut).x = s.x := rfl
@[simp] theorem State.tickOut_pc (s : State) : (s.tickOut).pc = s.pc := rfl
@[simp] theorem State.tickOut_active (s : State) : (s.tickOut).active = s.active := rfl
@[simp] theorem State.tickOut_status (s : State) : (s.tickOut).status = s.status := rfl
@[simp] theorem State.tickOut_heap (s : State) : (s.tickOut).heap = s.heap := rfl
@[simp] theorem State.tickOut_inPos (s : State) : (s.tickOut).inPos = s.inPos := rfl
@[simp] theorem State.tickOut_out (s : State) : (s.tickOut).out = s.out := rfl
@[simp] theorem State.tickOut_cfg (s : State) : (s.tickOut).cfg = s.cfg := rfl
@[simp] theorem State.tickOut_env (s : State) : (s.tickOut).env = { s.env with outReady := s.env.outReady.tail } := rfl
@[simp] theorem State.tickOut_reg (s : State) (r : RegIdx) : (s.tickOut).reg r = s.reg r := rfl

/-! ### outByte -/

@[simp] theorem State.outByte_x (s : State) (b : Byte) : (s.outByte b).x = s.x := rfl
@[simp] theorem State.outByte_pc (s : State) (b : Byte) : (s.outByte b).pc = s.pc := rfl
@[simp] theorem State.outByte_active (s : State) (b : Byte) : (s.outByte b).active = s.active := rfl
@[simp] theorem State.outByte_status (s : State) (b : Byte) : (s.outByte b).status = s.status := rfl
@[simp] theorem State.outByte_heap (s : State) (b : Byte) : (s.outByte b).heap = s.heap := rfl
@[simp] theorem State.outByte_inPos (s : State) (b : Byte) : (s.outByte b).inPos = s.inPos := rfl
@[simp] theorem State.outByte_out (s : State) (b : Byte) : (s.outByte b).out = s.out ++ [b] := rfl
@[simp] theorem State.outByte_cfg (s : State) (b : Byte) : (s.outByte b).cfg = s.cfg := rfl
@[simp] theorem State.outByte_env (s : State) (b : Byte) : (s.outByte b).env = s.env := rfl
@[simp] theorem State.outByte_reg (s : State) (b : Byte) (r : RegIdx) : (s.outByte b).reg r = s.reg r := rfl

/-! ### tickIn -/

@[simp] theorem State.tickIn_x (s : State) : (s.tickIn).x = s.x := rfl
@[simp] theorem State.tickIn_pc (s : State) : (s.tickIn).pc = s.pc := rfl
@[simp] theorem State.tickIn_active (s : State) : (s.tickIn).active = s.active := rfl
@[simp] theorem State.tickIn_status (s : State) : (s.tickIn).status = s.status := rfl
@[simp] theorem State.tickIn_heap (s : State) : (s.tickIn).heap = s.heap := rfl
@[simp] theorem State.tickIn_inPos (s : State) : (s.tickIn).inPos = s.inPos := rfl
@[simp] theorem State.tickIn_out (s : State) : (s.tickIn).out = s.out := rfl
@[simp] theorem State.tickIn_cfg (s : State) : (s.tickIn).cfg = s.cfg := rfl
@[simp] theorem State.tickIn_env (s : State) : (s.tickIn).env = { s.env with inValid := s.env.inValid.tail } := rfl
@[simp] theorem State.tickIn_reg (s : State) (r : RegIdx) : (s.tickIn).reg r = s.reg r := rfl

/-! ### takeByte -/

@[simp] theorem State.takeByte_x (s : State) : (s.takeByte).x = s.x := rfl
@[simp] theorem State.takeByte_pc (s : State) : (s.takeByte).pc = s.pc := rfl
@[simp] theorem State.takeByte_active (s : State) : (s.takeByte).active = s.active := rfl
@[simp] theorem State.takeByte_status (s : State) : (s.takeByte).status = s.status := rfl
@[simp] theorem State.takeByte_heap (s : State) : (s.takeByte).heap = s.heap := rfl
@[simp] theorem State.takeByte_inPos (s : State) : (s.takeByte).inPos = s.inPos + 1 := rfl
@[simp] theorem State.takeByte_out (s : State) : (s.takeByte).out = s.out := rfl
@[simp] theorem State.takeByte_cfg (s : State) : (s.takeByte).cfg = s.cfg := rfl
@[simp] theorem State.takeByte_env (s : State) : (s.takeByte).env = s.env := rfl
@[simp] theorem State.takeByte_reg (s : State) (r : RegIdx) : (s.takeByte).reg r = s.reg r := rfl

/-! ### tickLoad -/

@[simp] theorem State.tickLoad_x (s : State) : (s.tickLoad).x = s.x := rfl
@[simp] theorem State.tickLoad_pc (s : State) : (s.tickLoad).pc = s.pc := rfl
@[simp] theorem State.tickLoad_active (s : State) : (s.tickLoad).active = s.active := rfl
@[simp] theorem State.tickLoad_status (s : State) : (s.tickLoad).status = s.status := rfl
@[simp] theorem State.tickLoad_heap (s : State) : (s.tickLoad).heap = s.heap := rfl
@[simp] theorem State.tickLoad_inPos (s : State) : (s.tickLoad).inPos = s.inPos := rfl
@[simp] theorem State.tickLoad_out (s : State) : (s.tickLoad).out = s.out := rfl
@[simp] theorem State.tickLoad_cfg (s : State) : (s.tickLoad).cfg = s.cfg := rfl
@[simp] theorem State.tickLoad_env (s : State) : (s.tickLoad).env = { s.env with load := s.env.load.tail } := rfl
@[simp] theorem State.tickLoad_reg (s : State) (r : RegIdx) : (s.tickLoad).reg r = s.reg r := rfl

/-! ### Taking a fault -/

@[simp] theorem takeFault_x (r : Reason) (s : State) : (takeFault r s).x = s.x := rfl
@[simp] theorem takeFault_pc (r : Reason) (s : State) : (takeFault r s).pc = s.pc := rfl
@[simp] theorem takeFault_active (r : Reason) (s : State) : (takeFault r s).active = s.active := rfl
@[simp] theorem takeFault_status (r : Reason) (s : State) : (takeFault r s).status = .faulted r := rfl
@[simp] theorem takeFault_heap (r : Reason) (s : State) : (takeFault r s).heap = s.heap := rfl
@[simp] theorem takeFault_inPos (r : Reason) (s : State) : (takeFault r s).inPos = s.inPos := rfl
@[simp] theorem takeFault_out (r : Reason) (s : State) : (takeFault r s).out = s.out := rfl
@[simp] theorem takeFault_cfg (r : Reason) (s : State) : (takeFault r s).cfg = s.cfg := rfl
@[simp] theorem takeFault_env (r : Reason) (s : State) : (takeFault r s).env = s.env := rfl
@[simp] theorem takeFault_reg (r : Reason) (s : State) (i : RegIdx) : (takeFault r s).reg i = s.reg i := rfl

/-! ### Reset -/

@[simp] theorem State.applyReset_x (s : State) : s.applyReset.x = Vector.replicate 8 regReset := rfl
@[simp] theorem State.applyReset_pc (s : State) : s.applyReset.pc = 0#32 := rfl
@[simp] theorem State.applyReset_active (s : State) : s.applyReset.active = 0#32 := rfl
@[simp] theorem State.applyReset_status (s : State) : s.applyReset.status = .idle := rfl
@[simp] theorem State.applyReset_heap (s : State) : s.applyReset.heap = Heap.empty := rfl
@[simp] theorem State.applyReset_inPos (s : State) : s.applyReset.inPos = 0 := rfl
@[simp] theorem State.applyReset_out (s : State) : s.applyReset.out = [] := rfl
@[simp] theorem State.applyReset_cfg (s : State) : s.applyReset.cfg = s.cfg := rfl
@[simp] theorem State.applyReset_env (s : State) : s.applyReset.env = { s.env with resetIn := s.env.resetIn.tail } := rfl

/-! ### Reading a register after a write (10_state.md R11, R12) -/

theorem State.setReg_reg (s : State) (i r : RegIdx) (v : Word) :
    (s.setReg i v).reg r = if r = i then v else s.reg r := by
  simp only [State.reg, State.setReg, Fin.getElem_fin, Vector.getElem_set, Fin.ext_iff, eq_comm]

@[simp] theorem State.setReg_reg_same (s : State) (i : RegIdx) (v : Word) : (s.setReg i v).reg i = v := by
  simp [State.setReg_reg]

theorem State.setReg_reg_other (s : State) {i r : RegIdx} (v : Word) (h : r ≠ i) : (s.setReg i v).reg r = s.reg r := by
  simp [State.setReg_reg, h]

/-- Every register holds its reset value after reset (10_state.md R25). -/
@[simp] theorem State.applyReset_reg (s : State) (r : RegIdx) : s.applyReset.reg r = regReset := by
  simp [State.reg]

end Sys2Proof.Machine
end

