-- ==== Sys2Proof/Laws/Exec.lean ====
section
/-! SUPPORT. Everything one instruction can do, said once. Claims over all instructions are derived from `exec_effect`
instead of unfolding exec again. -/

namespace Sys2Proof.Machine

/-- A concluded instruction answers a next state: its own, or the fault taken in the state before it. -/
theorem conclude_next {s t : State} {e : Except Reason State} (h : conclude s e = .next t) :
    e = .ok t ∨ ∃ r, e = .error r ∧ t = takeFault r s := by
  cases e with
  | ok u => simp only [conclude, Host.Outcome.next.injEq] at h; exact .inl (by rw [h])
  | error r => simp only [conclude, Host.Outcome.next.injEq] at h; exact .inr ⟨r, rfl, h.symm⟩

/-- The effects an instruction can have on a state, by what they touch. -/
inductive Effect (s : State) : Instr → State → Prop where
  /-- one of the instruction's own faults, taken -/
  | faulted (i : Instr) (r : Reason) (e : r ∈ instrFaults i) : Effect s i (takeFault r s)
  /-- the destination register written, and nothing else: every instruction with a destination but ALLOC and IN -/
  | wrote (i : Instr) (a : RegIdx) (v : Word) (e : instrDestination i = some a) (hi : ∀ c, i ≠ .inp c)
      (ha : ∀ p q, i ≠ .alloc p q) : Effect s i (s.setReg a v).advance
  /-- CMOV with a false condition -/
  | kept (a b c : RegIdx) : Effect s (.cmov a b c) s.advance
  | stored (a b c : RegIdx) (h : Heap) (e : s.heap.memWrite (s.reg a) (s.reg b) (s.reg c) = .ok h) :
      Effect s (.amend a b c) (s.setHeap h).advance
  | halted : Effect s .halt s.advance.halt
  | allocated (a b : RegIdx) (id : Word) (h : Heap) (e : s.heap.allocate s.cfg (s.reg b) = .ok (id, h)) :
      Effect s (.alloc a b) ((s.setHeap h).setReg a id).advance
  | abandoned (c : RegIdx) (h : Heap) (e : s.heap.abandon (s.reg c) = .ok h) :
      Effect s (.abandon c) (s.setHeap h).advance
  | emitted (c : RegIdx) (e : s.sinkReady = true) :
      Effect s (.out c) (s.tickOut.outByte (lowByte (s.reg c))).advance
  | outHeld (c : RegIdx) (e : s.sinkReady = false) : Effect s (.out c) s.tickOut
  | byteRead (c : RegIdx) (b : Byte) (e : s.inOffer = .byte b) :
      Effect s (.inp c) (s.tickIn.takeByte.setReg c (byteOperand b)).advance
  | endRead (c : RegIdx) (e : s.inOffer = .endOfInput) : Effect s (.inp c) (s.tickIn.setReg c allOnes).advance
  | inHeld (c : RegIdx) (e : s.inOffer = .nothing) : Effect s (.inp c) s.tickIn
  | jumped (b c : RegIdx) (e : s.heap.present (s.reg b) = true) :
      Effect s (.loadprog b c) (s.jump (s.reg b) (s.reg c))

/-- A data access raises `InvalidArray` or `OutOfBounds` (20_memory.md R35). -/
theorem Heap.memRead_error {h : Heap} {id off : Word} {r : Reason} (e : h.memRead id off = .error r) :
    r ∈ [Reason.invalidArray, Reason.outOfBounds] := by
  unfold Heap.memRead at e
  rcases h.checked_cases id off with ⟨-, h1⟩ | ⟨a, -, -, h1⟩ | ⟨a, -, -, h1⟩ <;> rw [h1] at e <;> simp at e <;> simp [← e]

theorem Heap.memWrite_error {h : Heap} {id off v : Word} {r : Reason} (e : h.memWrite id off v = .error r) :
    r ∈ [Reason.invalidArray, Reason.outOfBounds] := by
  unfold Heap.memWrite at e
  rcases h.checked_cases id off with ⟨-, h1⟩ | ⟨a, -, -, h1⟩ | ⟨a, -, -, h1⟩ <;> rw [h1] at e <;> simp at e <;> simp [← e]

theorem Heap.allocate_error {h : Heap} {cfg : Config} {n : Word} {r : Reason} (e : h.allocate cfg n = .error r) :
    r ∈ [Reason.outOfIdentifiers, Reason.outOfMemory] := by
  rcases h.allocate_cases cfg n with ⟨-, h1⟩ | ⟨-, -, h1⟩ | ⟨-, -, h1⟩ <;> rw [h1] at e <;> simp at e <;> simp [← e]

/-- Everything an instruction can do. -/
theorem exec_effect {i : Instr} {s t : State} (h : exec i s = .next t) : Effect s i t := by
  have fault : ∀ {e : Except Reason State}, conclude s e = .next t → (∀ u, e = .ok u → Effect s i u) →
      (∀ r, e = .error r → r ∈ instrFaults i) → Effect s i t := by
    intro e he hu hr
    rcases conclude_next he with h1 | ⟨r, h1, rfl⟩
    · exact hu t h1
    · exact .faulted i r (hr r h1)
  cases i with
  | cmov a b c =>
    simp only [exec, execCmov, Host.Outcome.next.injEq] at h
    subst h
    split
    · exact .wrote _ _ _ rfl nofun nofun
    · exact .kept a b c
  | aidx a b c =>
    refine fault h (fun u hu => ?_) (fun r hr => ?_)
    · split at hu
      · simp at hu
      · simp only [Except.ok.injEq] at hu; subst hu; exact .wrote _ _ _ rfl nofun nofun
    · split at hr
      · simp only [Except.error.injEq] at hr; subst hr; exact Heap.memRead_error (by assumption)
      · simp at hr
  | amend a b c =>
    refine fault h (fun u hu => ?_) (fun r hr => ?_)
    · split at hu
      · simp at hu
      · simp only [Except.ok.injEq] at hu; subst hu; exact .stored a b c _ (by assumption)
    · split at hr
      · simp only [Except.error.injEq] at hr; subst hr; exact Heap.memWrite_error (by assumption)
      · simp at hr
  | add a b c | mul a b c | nand a b c | sub a b c =>
    injection h with h; subst h; exact .wrote _ _ _ rfl nofun nofun
  | div a b c | mod a b c =>
    refine fault h (fun u hu => ?_) (fun r hr => ?_)
    · split at hu
      · simp only [Except.ok.injEq] at hu; subst hu; exact .wrote _ _ _ rfl nofun nofun
      · simp at hu
    · split at hr
      · simp at hr
      · simp only [Except.error.injEq] at hr; subst hr; exact List.mem_singleton.mpr rfl
  | halt => injection h with h; subst h; exact .halted
  | alloc a b =>
    refine fault h (fun u hu => ?_) (fun r hr => ?_)
    · split at hu
      · simp at hu
      · simp only [Except.ok.injEq] at hu; subst hu; exact .allocated a b _ _ (by assumption)
    · split at hr
      · simp only [Except.error.injEq] at hr; subst hr; exact Heap.allocate_error (by assumption)
      · simp at hr
  | abandon c =>
    refine fault h (fun u hu => ?_) (fun r hr => ?_)
    · split at hu
      · simp at hu
      · simp only [Except.ok.injEq] at hu; subst hu; exact .abandoned c _ (by assumption)
    · split at hr
      · simp only [Except.error.injEq] at hr; subst hr
        exact List.mem_singleton.mpr (Heap.abandon_error (by assumption))
      · simp at hr
  | out c =>
    simp only [exec, execOut, Host.Outcome.next.injEq] at h
    subst h
    split
    · exact .emitted c (by assumption)
    · rename_i hr
      exact .outHeld c (Bool.eq_false_iff.mpr hr)
  | inp c =>
    simp only [exec, execInp, Host.Outcome.next.injEq] at h
    subst h
    split
    · exact .inHeld c (by assumption)
    · exact .endRead c (by assumption)
    · exact .byteRead c _ (by assumption)
  | loadprog b c =>
    refine fault h (fun u hu => ?_) (fun r hr => ?_)
    · split at hu
      · simp only [Except.ok.injEq] at hu; subst hu; exact .jumped b c (by assumption)
      · simp at hu
    · split at hr
      · simp at hr
      · simp only [Except.error.injEq] at hr; subst hr; exact List.mem_singleton.mpr rfl
  | ldi ri imm => injection h with h; subst h; exact .wrote _ _ _ rfl nofun nofun

/-- Every instruction answers a next state: no instruction stops the model. -/
theorem exec_answers (i : Instr) (s : State) : ∃ t, exec i s = .next t := by
  have hc : ∀ e : Except Reason State, ∃ t, conclude s e = .next t := by
    intro e; cases e <;> exact ⟨_, rfl⟩
  cases i <;> first | exact ⟨_, rfl⟩ | exact hc _

end Sys2Proof.Machine
end

