-- ==== Sys2Proof/Laws/IdTable.lean ====
section
/-! SUPPORT. The identifier table under ALLOC and ABANDON: its keys and its words (spec 20_memory.md R38, R39). -/

namespace Sys2Proof.Machine

variable {α : Type}

/-- Replacing the entry of a listed key keeps the keys. -/
theorem keys_insert_listed {k : Nat} {u v : α} {l : List (Nat × α)} (hs : sparseSorted l = true)
    (h : sparseFind k l = some u) : (sparseInsert k v l).map (fun e => e.1) = l.map (fun e => e.1) := by
  induction l with
  | nil => simp at h
  | cons e l ih =>
    obtain ⟨j, w⟩ := e
    have hs' := hs
    simp only [sparseSorted, Bool.and_eq_true, List.all_eq_true, decide_eq_true_eq] at hs'
    unfold sparseInsert
    split
    · rename_i hk
      rw [sparseFind_below hs hk] at h
      simp at h
    · split
      · rename_i hk; simp [hk]
      · rename_i hk
        rw [sparseFind_cons, if_neg hk] at h
        simp [ih hs'.2 h]

/-- Listing a key above every other appends its entry. -/
theorem insert_above {k : Nat} {v : α} {l : List (Nat × α)} (h : ∀ e ∈ l, e.1 < k) : sparseInsert k v l = l ++ [(k, v)] := by
  induction l with
  | nil => rfl
  | cons e l ih =>
    obtain ⟨j, u⟩ := e
    have hj : j < k := h (j, u) (List.mem_cons_self ..)
    unfold sparseInsert
    rw [if_neg (by omega), if_neg (by omega), ih fun e he => h e (List.mem_cons_of_mem _ he)]
    rfl

/-- The words of the entry listed under `k`. -/
def wordsAt (k : Nat) (l : List (Nat × Slot)) : Nat := ((sparseFind k l).map Slot.words).getD 0

/-- Replacing or adding an entry moves the sum of the words by that entry's words. -/
theorem words_insert {k : Nat} {v : Slot} {l : List (Nat × Slot)} (hs : sparseSorted l = true) :
    ((sparseInsert k v l).map (fun e => e.2.words)).sum + wordsAt k l = (l.map (fun e => e.2.words)).sum + v.words := by
  induction l with
  | nil => simp [sparseInsert, wordsAt]
  | cons e l ih =>
    obtain ⟨j, u⟩ := e
    have hs' := hs
    simp only [sparseSorted, Bool.and_eq_true, List.all_eq_true, decide_eq_true_eq] at hs'
    have ih := ih hs'.2
    unfold sparseInsert
    split
    · rename_i hk
      simp [wordsAt, sparseFind_below hs hk]
      omega
    · split
      · rename_i hk
        simp [wordsAt, sparseFind_cons, hk]
        omega
      · rename_i hk
        simp only [wordsAt, sparseFind_cons, hk, if_false] at ih ⊢
        simp only [List.map_cons, List.sum_cons]
        omega

theorem Heap.usedWords_putSlot {h : Heap} {id : Word} {sl : Slot} (hw : h.wf = true) :
    (h.putSlot id sl).usedWords + wordsAt id.toNat h.ids = h.usedWords + sl.words :=
  words_insert ((Heap.wf_iff h).mp hw).2.1

/-- In a table that lists 1 .. n, what the scan finds is listed as freed, or is n + 1. -/
theorem firstFree_contiguous {l : List (Nat × Slot)} (hs : sparseSorted l = true)
    (hk : l.map (fun e => e.1) = List.range' 1 l.length) :
    (firstFree 1 l ≤ l.length ∧ sparseFind (firstFree 1 l) l = some .freed) ∨ firstFree 1 l = l.length + 1 := by
  obtain ⟨h1, h2⟩ := firstFree_spec (k := 1) hs
  have hl := le_firstFree 1 l
  have keys : ∀ k, (∃ v, (k, v) ∈ l) ↔ 1 ≤ k ∧ k ≤ l.length := by
    intro k
    have : k ∈ l.map (fun e => e.1) ↔ 1 ≤ k ∧ k ≤ l.length := by
      rw [hk, List.mem_range'_1]
      omega
    rw [← this, List.mem_map]
    constructor
    · rintro ⟨v, hv⟩; exact ⟨_, hv, rfl⟩
    · rintro ⟨⟨j, v⟩, hv, rfl⟩; exact ⟨v, hv⟩
  rcases Nat.lt_or_ge l.length (firstFree 1 l) with hgt | hle
  · right
    rcases Nat.lt_or_ge (l.length + 1) (firstFree 1 l) with h | h
    · obtain ⟨a, ha⟩ := h2 (l.length + 1) (by omega) h
      have := (keys _).mp ⟨_, mem_of_sparseFind ha⟩
      omega
    · omega
  · left
    obtain ⟨v, hv⟩ := (keys _).mpr ⟨hl, hle⟩
    have hf := sparseFind_of_mem hs hv
    cases v with
    | freed => exact ⟨hle, hf⟩
    | allocated a => exact absurd hf (h1 a)

/-- Two rising tables that find the same under every key are the same table. -/
theorem eq_of_sparseFind {l l' : List (Nat × α)} (hs : sparseSorted l = true) (hs' : sparseSorted l' = true)
    (h : ∀ k, sparseFind k l = sparseFind k l') : l = l' := by
  induction l generalizing l' with
  | nil =>
    cases l' with
    | nil => rfl
    | cons e l' =>
      obtain ⟨j, v⟩ := e
      have := h j
      simp [sparseFind_cons] at this
  | cons e l ih =>
    obtain ⟨j, v⟩ := e
    cases l' with
    | nil =>
      have := h j
      simp [sparseFind_cons] at this
    | cons e' l' =>
      obtain ⟨i, w⟩ := e'
      have hji : j = i := by
        rcases Nat.lt_trichotomy j i with hlt | he | hlt
        · have := h j
          rw [sparseFind_below hs' hlt] at this
          simp [sparseFind_cons] at this
        · exact he
        · have := h i
          rw [sparseFind_below hs hlt] at this
          simp [sparseFind_cons] at this
      subst hji
      have hv : v = w := by simpa [sparseFind_cons] using h j
      subst hv
      simp only [sparseSorted, Bool.and_eq_true, List.all_eq_true, decide_eq_true_eq] at hs hs'
      congr 1
      refine ih hs.2 hs'.2 fun k => ?_
      have hk := h k
      rw [sparseFind_cons, sparseFind_cons] at hk
      by_cases hjk : j = k
      · subst hjk
        have none_of : ∀ m : List (Nat × α), (∀ e ∈ m, j < e.1) → sparseFind j m = none := by
          intro m hm
          by_contra hc
          obtain ⟨u, hu⟩ := Option.ne_none_iff_exists'.mp hc
          have := hm _ (mem_of_sparseFind hu)
          simp at this
        rw [none_of l hs.1, none_of l' hs'.1]
      · simpa [hjk] using hk

end Sys2Proof.Machine
end

