-- ==== Sys2Proof/Laws/PerInstr.lean ====
section
/-! SUPPORT. A statement about every instruction as syntax, one lemma per constructor. -/

namespace Sys2Proof.Laws.Layout

/-- The instruction is well formed, and its fields stand for it and for no other instruction: dropping the unused fields
(30_encoding.md R66) loses nothing of it. -/
def Statement (i : Instr) : Prop := i.wellFormed = true ∧ instrOfFields i.fields = some i

theorem cmov (a b c : RegIdx) : Statement (.cmov a b c) := ⟨rfl, rfl⟩
theorem aidx (a b c : RegIdx) : Statement (.aidx a b c) := ⟨rfl, rfl⟩
theorem amend (a b c : RegIdx) : Statement (.amend a b c) := ⟨rfl, rfl⟩
theorem add (a b c : RegIdx) : Statement (.add a b c) := ⟨rfl, rfl⟩
theorem mul (a b c : RegIdx) : Statement (.mul a b c) := ⟨rfl, rfl⟩
theorem div (a b c : RegIdx) : Statement (.div a b c) := ⟨rfl, rfl⟩
theorem nand (a b c : RegIdx) : Statement (.nand a b c) := ⟨rfl, rfl⟩
theorem halt : Statement .halt := ⟨rfl, rfl⟩
theorem alloc (a b : RegIdx) : Statement (.alloc a b) := ⟨rfl, rfl⟩
theorem abandon (c : RegIdx) : Statement (.abandon c) := ⟨rfl, rfl⟩
theorem out (c : RegIdx) : Statement (.out c) := ⟨rfl, rfl⟩
theorem inp (c : RegIdx) : Statement (.inp c) := ⟨rfl, rfl⟩
theorem loadprog (b c : RegIdx) : Statement (.loadprog b c) := ⟨rfl, rfl⟩
theorem ldi (ri : RegIdx) (imm : Imm25) : Statement (.ldi ri imm) := ⟨rfl, rfl⟩
theorem sub (a b c : RegIdx) : Statement (.sub a b c) := ⟨rfl, rfl⟩
theorem mod (a b c : RegIdx) : Statement (.mod a b c) := ⟨rfl, rfl⟩

end Sys2Proof.Laws.Layout
end

