-- ==== Sys2Proof/Laws/Step.lean ====
section
/-! SUPPORT. Everything one step can do, said once. -/

namespace Sys2Proof.Machine

/-- All that a held machine's transaction on the load port can answer. -/
theorem loadTransaction_cases {s t : State} (h : loadTransaction s = .next t) :
    t = s.tickLoad ∨
    (∃ w a, s.heap.prog.append w = some a ∧ t = s.tickLoad.setHeap (s.heap.setProg a)) ∨
    (∃ bytes, t = { s.tickLoad with env := { s.tickLoad.env with input := bytes } }) ∨
    t = { s.tickLoad with status := .running } := by
  unfold loadTransaction at h
  split at h
  · injection h with h; exact .inl h.symm
  · rename_i w _
    split at h
    · rename_i a ha
      injection h with h; exact .inr (.inl ⟨w, a, ha, h.symm⟩)
    · simp at h
  · rename_i bytes _
    injection h with h; exact .inr (.inr (.inl ⟨bytes, h.symm⟩))
  · injection h with h; exact .inr (.inr (.inr h.symm))

/-- All that a cycle can answer: a fault of its fetch or decode, or the effect of its instruction. -/
theorem cycle_cases {s t : State} (h : cycle s = .next t) :
    (∃ r, currentInstr s = .error r ∧ t = takeFault r s) ∨
    (∃ i, currentInstr s = .ok i ∧ exec i s = .next t) := by
  unfold cycle at h
  split at h
  · rename_i r hr; injection h with h; exact .inl ⟨r, hr, h.symm⟩
  · rename_i i hi; exact .inr ⟨i, hi, h⟩

/-- All that a step can do. -/
theorem step_cases {s t : State} (h : step s = .next t) :
    (s.resetAsserted = true ∧ t = s.applyReset) ∨
    (s.resetAsserted = false ∧ s.status = .idle ∧ loadTransaction s.tickReset = .next t) ∨
    (s.resetAsserted = false ∧ s.status = .running ∧ cycle s.tickReset = .next t) ∨
    (s.resetAsserted = false ∧ (s.status = .halted ∨ ∃ r, s.status = .faulted r) ∧ t = s.tickReset) := by
  unfold step at h
  cases hr : s.resetAsserted with
  | true =>
    rw [hr, if_pos rfl] at h
    injection h with h
    exact .inl ⟨rfl, h.symm⟩
  | false =>
    rw [hr, if_neg (by simp)] at h
    refine .inr ?_
    split at h
    · exact .inl ⟨rfl, by assumption, h⟩
    · exact .inr (.inl ⟨rfl, by assumption, h⟩)
    · injection h with h; exact .inr (.inr ⟨rfl, .inl (by assumption), h.symm⟩)
    · injection h with h; exact .inr (.inr ⟨rfl, .inr ⟨_, by assumption⟩, h.symm⟩)

end Sys2Proof.Machine
end

