-- ==== Sys2Proof/Tests/Slice0.lean ====
section
/-! SUPPORT. The model's own tests. Words and results are those of spec 95_test_vectors.md (named T-... and S...), or
written out by hand from the encoding line of the instruction's rule; then one witness per statement of
Certificates/Slice0/Obligations.lean that has hypotheses. -/

namespace Sys2Proof.Tests

open Sys2Proof Sys2Proof.Machine

/-! ### Helpers -/

/-- The next state, if there is one. -/
def next? : Host.Outcome State Fault Refusal → Option State
  | .next t => some t
  | .fault _ => none
  | .refused _ => none

/-- A running machine with the given registers and program, reset values elsewhere. -/
def machine (x : Vector Word 8) (words : List Word) : State :=
  match launch Config.standard Env.quiet words with
  | some s => { s with x := x }
  | none => State.reset

/-- Array 1 is `[0, 77]`, identifier 2 is freed, identifier 3 was never produced. `x[0]` = 0, `x[1]` = 1, `x[2]` = 2,
`x[3]` = 3; the program is one HALT. -/
def heapMachine : State :=
  { machine #v[0, 1, 2, 3, 0, 0, 0, 0] [0x70000000#32] with
    heap := { prog := { len := 1#32, cells := [(0, 0x70000000#32)] }
              ids := [(1, .allocated { len := 2#32, cells := [(1, 77#32)] }), (2, .freed)] } }

/-- `heapMachine` under another build. -/
def builtWith (idMax : Word) (capacity : Option Nat) : State :=
  { heapMachine with cfg := { idMax := idMax, capacity := capacity } }

/-- What one instruction leaves in register `r`, `pc` and the status. -/
def outcome (i : Instr) (s : State) (r : RegIdx) : Option (Word × Word × Status) :=
  (next? (exec i s)).map fun t => (t.reg r, t.pc, t.status)

/-! ### Well-formedness: what the check accepts and what it refuses -/

theorem test_wellFormed_accepts : (Fields.std .add 1 2 3).wellFormed = true ∧ (Fields.imm 7 0x1FFFFFF#25).wellFormed = true := by
  decide

/-- "0–15 excluding the immediate-load opcode" (30_encoding.md R61). -/
theorem test_wellFormed_refuses_standard_ldi : (Fields.std .ldi 0 0 0).wellFormed = false := by decide

theorem test_wellFormed_refuses_illegal : Fields.illegal.wellFormed = false := by decide

/-- An ill-formed field group is no instruction. -/
theorem test_illFormed_is_no_instruction :
    instrOfFields (.std .ldi 1 2 3) = none ∧ instrOfFields .illegal = none := by decide

/-! ### Decoding: a word of every constructor -/

/-- OP 0000, A 001, B 010, C 011 (T-MOV-1). -/
theorem test_decode_cmov : decode 0b00000000000000000000000001010011#32 = .ok (.cmov 1 2 3) := by decide
/-- T-DEC-13. -/
theorem test_decode_aidx : decode 0x12345678#32 = .ok (.aidx 1 7 0) := by decide
/-- OP 0010, A 010, B 011, C 100 (program P2, offset 4). -/
theorem test_decode_amend : decode 0b00100000000000000000000010011100#32 = .ok (.amend 2 3 4) := by decide
/-- T-DEC-7, and T-DEC-8 with filler. -/
theorem test_decode_add : decode 0b00110000000000000000000001010011#32 = .ok (.add 1 2 3) ∧
    decode 0x3FFFFE53#32 = .ok (.add 1 2 3) := by decide
/-- Program P5, offset 2. -/
theorem test_decode_mul : decode 0b01000000000000000000000001001010#32 = .ok (.mul 1 1 2) := by decide
/-- Program P3, offset 3. -/
theorem test_decode_div : decode 0b01010000000000000000000010001011#32 = .ok (.div 2 1 3) := by decide
/-- Program P6, offset 1. -/
theorem test_decode_nand : decode 0b01100000000000000000000001000000#32 = .ok (.nand 1 0 0) := by decide
/-- T-DEC-10. -/
theorem test_decode_halt : decode 0x7ABCDE00#32 = .ok .halt ∧ decode 0x70000000#32 = .ok .halt := by decide
/-- T-DEC-16. -/
theorem test_decode_alloc : decode 0b10000000000000000000000010001000#32 = .ok (.alloc 2 1) := by decide
/-- Program P8, offset 4. -/
theorem test_decode_abandon : decode 0b10010000000000000000000000000010#32 = .ok (.abandon 2) := by decide
/-- T-DEC-11: A and B unused. -/
theorem test_decode_out : decode 0xA00001F8#32 = .ok (.out 0) := by decide
/-- T-IO-3. -/
theorem test_decode_in : decode 0b10110000000000000000000000000001#32 = .ok (.inp 1) := by decide
/-- T-DEC-12. -/
theorem test_decode_loadprog : decode 0b11000000000000000000000000111100#32 = .ok (.loadprog 7 4) := by decide
/-- T-DEC-5 and T-DEC-6: bits 8:0 are immediate bits. -/
theorem test_decode_ldi : decode 0xDFFFFFFF#32 = .ok (.ldi 7 33554431#25) ∧ decode 0xD00001FF#32 = .ok (.ldi 0 511#25) := by
  decide
/-- T-DEC-14. -/
theorem test_decode_sub : decode 0b11100000000000000000000000001010#32 = .ok (.sub 0 1 2) := by decide
/-- T-DEC-2 and T-DEC-15. -/
theorem test_decode_mod : decode 0xFFFFFFFF#32 = .ok (.mod 7 7 7) ∧ decode 0xF000000A#32 = .ok (.mod 0 1 2) := by decide

/-- Encodings of 95_test_vectors.md. -/
theorem test_encode : encode (.amend 2 3 4) = 0x2000009C#32 ∧ encode (.ldi 0 72) = 0xD0000048#32 ∧
    encode .halt = 0x70000000#32 ∧ encode (.loadprog 3 5) = 0xC000001D#32 ∧ encode (.out 3) = 0xA0000003#32 := by decide

/-- The decoder's ports on T-DEC-3 and T-DEC-9. -/
theorem test_decoder_ports : (decoderPorts 0xD0000048#32).isImm = true ∧ (decoderPorts 0xD0000048#32).immVal = 72#25 ∧
    (decoderPorts 0x300001FF#32).isImm = false ∧ (decoderPorts 0x300001FF#32).a = 7 := by decide

theorem test_decodeTableWord : decodeTableWord 32 0x300001FF = some (.add 7 7 7) ∧ decodeTableWord 32 (2 ^ 32) = none := by
  decide

/-- The first instruction after reset: T-DEC-3's `LDI r0, 72`, placed where the machine fetches. -/
theorem test_withFetchWord_runs :
    (next? (step (State.reset.withFetchWord 32 0xD0000048))).map (fun t => (t.reg 0, t.pc)) = some (72#32, 1#32) := by decide

/-! ### One instruction at a time -/

/-- T-MOV-3: any nonzero Word is true. -/
theorem test_cmov_moves : outcome (.cmov 1 2 3) (machine #v[0, 7, 9, 0x80000000, 0, 0, 0, 0] []) 1 =
    some (9#32, 1#32, .running) := by decide
/-- T-MOV-2. -/
theorem test_cmov_keeps : outcome (.cmov 1 2 3) (machine #v[0, 7, 9, 0, 0, 0, 0, 0] []) 1 = some (7#32, 1#32, .running) := by
  decide
/-- T-MOV-7: upper 7 bits zero. -/
theorem test_ldi_zero_extends : outcome (.ldi 7 0x1FFFFFF) (machine #v[0, 0, 0, 0, 0, 0, 0, 0xFFFFFFFF] []) 7 =
    some (0x01FFFFFF#32, 1#32, .running) := by decide
/-- The element of array 1 at its last offset (R36). -/
theorem test_aidx_reads : outcome (.aidx 4 1 1) heapMachine 4 = some (77#32, 1#32, .running) := by decide
/-- T-MEM-2's check, at offset = length; and T-MEM-4's, use after abandon. -/
theorem test_aidx_faults : outcome (.aidx 4 1 2) heapMachine 4 = some (0#32, 0#32, .faulted .outOfBounds) ∧
    outcome (.aidx 4 2 2) heapMachine 4 = some (0#32, 0#32, .faulted .invalidArray) := by decide
/-- S5, T-MEM-8: array 0 behaves as an ordinary array. -/
theorem test_amend_array_zero : (next? (exec (.amend 0 0 3) heapMachine)).map (fun t => (t.heap.peek 0 0, t.pc)) =
    some (some 3#32, 1#32) := by decide
/-- T-MEM-2, T-MEM-5. -/
theorem test_amend_faults : outcome (.amend 1 2 3) heapMachine 0 = some (0#32, 0#32, .faulted .outOfBounds) ∧
    outcome (.amend 2 0 3) heapMachine 0 = some (0#32, 0#32, .faulted .invalidArray) := by decide
/-- T-ALU-4, T-ALU-49. -/
theorem test_add : outcome (.add 0 1 2) (machine #v[0, 0xFFFFFFFF, 0xFFFFFFFF, 0, 0, 0, 0, 0] []) 0 =
      some (0xFFFFFFFE#32, 1#32, .running) ∧
    outcome (.add 1 1 1) (machine #v[0, 5, 0, 0, 0, 0, 0, 0] []) 1 = some (10#32, 1#32, .running) := by decide
/-- T-ALU-19. -/
theorem test_mul : outcome (.mul 0 1 2) (machine #v[0, 0x12345678, 0x9ABCDEF0, 0, 0, 0, 0, 0] []) 0 =
    some (0x242D2080#32, 1#32, .running) := by decide
/-- T-ALU-27: unsigned. -/
theorem test_div_unsigned : outcome (.div 0 1 2) (machine #v[9, 0x80000000, 0xFFFFFFFF, 0, 0, 0, 0, 0] []) 0 =
    some (0#32, 1#32, .running) := by decide
/-- T-ALU-30. -/
theorem test_div_by_zero : outcome (.div 0 1 2) (machine #v[9, 0, 0, 0, 0, 0, 0, 0] []) 0 =
    some (9#32, 0#32, .faulted .divisionByZero) := by decide
/-- T-ALU-43. -/
theorem test_nand : outcome (.nand 0 1 2) (machine #v[0, 0x0000FFFF, 0x00FF00FF, 0, 0, 0, 0, 0] []) 0 =
    some (0xFFFFFF00#32, 1#32, .running) := by decide
/-- T-ALU-7. -/
theorem test_sub : outcome (.sub 0 1 2) (machine #v[0, 3, 5, 0, 0, 0, 0, 0] []) 0 =
    some (0xFFFFFFFE#32, 1#32, .running) := by decide
/-- T-ALU-38. -/
theorem test_mod_unsigned : outcome (.mod 0 1 2) (machine #v[0, 0x80000000, 0xFFFFFFFF, 0, 0, 0, 0, 0] []) 0 =
    some (0x80000000#32, 1#32, .running) := by decide
/-- T-ALU-40. -/
theorem test_mod_by_zero : outcome (.mod 0 1 2) (machine #v[9, 7, 0, 0, 0, 0, 0, 0] []) 0 =
    some (9#32, 0#32, .faulted .divisionByZero) := by decide
/-- T-HEAP-2: the size is read before the write; the new array is zeros. -/
theorem test_alloc : (next? (exec (.alloc 1 1) (machine #v[0, 3, 0, 0, 0, 0, 0, 0] []))).map
    (fun t => (t.reg 1, t.heap.peek 1 2, t.heap.peek 1 3)) = some (1#32, some 0#32, none) := by decide
/-- T-HEAP-7's and T-HEAP-8's faults, in `heapMachine` (2 words used, identifier 2 free). -/
theorem test_alloc_faults : outcome (.alloc 4 3) (builtWith 1#32 none) 4 = some (0#32, 0#32, .faulted .outOfIdentifiers) ∧
    outcome (.alloc 4 3) (builtWith 2#32 (some 4)) 4 = some (0#32, 0#32, .faulted .outOfMemory) ∧
    outcome (.alloc 4 2) (builtWith 2#32 (some 4)) 4 = some (2#32, 1#32, .running) := by decide
/-- T-HEAP-5's first ABANDON: the identifier is freed, the register keeps it. -/
theorem test_abandon : (next? (exec (.abandon 1) heapMachine)).map (fun t => (t.heap.idState 1, t.reg 1, t.pc)) =
    some (.freed, 1#32, 1#32) := by decide
/-- T-HEAP-4, T-HEAP-5, T-HEAP-6: identifier 0, double abandon, never allocated. -/
theorem test_abandon_faults : outcome (.abandon 0) heapMachine 0 = some (0#32, 0#32, .faulted .invalidArray) ∧
    outcome (.abandon 2) heapMachine 2 = some (2#32, 0#32, .faulted .invalidArray) ∧
    outcome (.abandon 3) heapMachine 3 = some (3#32, 0#32, .faulted .invalidArray) := by decide
/-- T-IO-2: only the low 8 bits. -/
theorem test_out : (next? (exec (.out 0) (machine #v[0x148, 0, 0, 0, 0, 0, 0, 0] []))).map (fun t => (t.out, t.pc)) =
    some ([0x48#8], 1#32) := by decide
/-- T-IO-4's first IN: byte 255 is not the end of input. -/
theorem test_in_byte : (next? (exec (.inp 0) { heapMachine with env := { Env.quiet with input := [0xFF#8] } })).map
    (fun t => (t.reg 0, t.inPos, t.pc)) = some (0xFF#32, 1, 1#32) := by decide
/-- T-IO-3: the end of input consumes nothing. -/
theorem test_in_end : (next? (exec (.inp 0) heapMachine)).map (fun t => (t.reg 0, t.inPos, t.pc)) =
    some (0xFFFFFFFF#32, 0, 1#32) := by decide
/-- T-CTL-1. -/
theorem test_halt : outcome .halt heapMachine 0 = some (0#32, 1#32, .halted) := by decide
/-- T-CTL-4: the jump itself completes whatever the offset; identifier 0 is present. -/
theorem test_loadprog : (next? (exec (.loadprog 0 3) heapMachine)).map (fun t => (t.active, t.pc, t.status)) =
    some (0#32, 3#32, .running) := by decide
/-- T-CTL-5. -/
theorem test_loadprog_faults : (next? (exec (.loadprog 3 0) heapMachine)).map (fun t => (t.active, t.pc, t.status)) =
    some (0#32, 0#32, .faulted .invalidArray) := by decide

/-! ### One step of the machine -/

/-- T-CTL-2: an empty program. -/
theorem test_step_empty_program : (next? (step (machine #v[0, 0, 0, 0, 0, 0, 0, 0] []))).map (fun t => (t.pc, t.status)) =
    some (0#32, .faulted .programCounterOutOfBounds) := by decide

/-- A held machine takes a word of the load port and stays held (70_reset_and_hazards.md R153). -/
theorem test_step_loads_word :
    (next? (step { State.reset with env := { Env.quiet with load := [.word 0x70000000#32, .start] } })).map
      (fun t => (t.heap.prog.len, t.heap.peek 0 0, t.status, t.env.load)) =
    some (1#32, some 0x70000000#32, .idle, [.start]) := by decide

/-- `start` starts it. -/
theorem test_step_starts :
    (next? (step { State.reset with env := { Env.quiet with load := [.start] } })).map (fun t => t.status) = some .running := by
  decide

/-- A terminal machine does not move (R87); reset takes it back (R150). -/
theorem test_step_terminal :
    (next? (step { heapMachine with status := .halted })).map (fun t => (t.reg 1, t.status)) = some (1#32, .halted) ∧
    (next? (step { heapMachine with status := .halted, env := { Env.quiet with resetIn := [true] } })).map
      (fun t => (t.reg 1, t.status, t.heap)) = some (0#32, .idle, Heap.empty) := by decide

/-! ### Witnesses: the hypotheses of each statement are met together -/

theorem test_witness_EncodeThenDecode : (Instr.mod 7 7 7).wellFormed = true ∧ (Instr.ldi 7 0x1FFFFFF).wellFormed = true := by
  decide

theorem test_witness_FieldsRoundTrip : Opcode.mod ≠ .ldi ∧ extractFields 0xDFFFFFFF#32 = .imm 7 0x1FFFFFF#25 ∧
    extractFields 0xF00001FF#32 = .std .mod 7 7 7 ∧ (0xF00001FF#32).extractLsb' 9 19 = 0#19 := by decide

/-- T-DEC-7 and T-DEC-8. -/
theorem test_witness_FillerBitsIgnored : fieldOP 0x30000053#32 = fieldOP 0x3FFFFE53#32 ∧ fieldOP 0x30000053#32 ≠ 0xD#4 ∧
    (0x30000053#32).extractLsb' 0 9 = (0x3FFFFE53#32).extractLsb' 0 9 ∧ (0x30000053#32) ≠ 0x3FFFFE53#32 := by decide

theorem test_witness_DecoderPortsShowTheFields :
    (decoderPorts 0xDFFFFFFF#32).isImm = true ∧ (decoderPorts 0xCFFFFFFF#32).isImm = false := by decide

theorem test_witness_DivModQuotientRemainder : heapMachine.reg 2 ≠ 0#32 ∧ heapMachine.reg 0 = 0#32 := by decide

/-- Identifier 2 is absent; array 1 has 2 words: offset 2 is out, offset 1 is in. -/
theorem test_witness_DataAccessChecks : heapMachine.heap.present 2 = false ∧
    ∃ arr, heapMachine.heap.arr? 1 = some arr ∧ arr.len ≤ 2#32 ∧ 1#32 < arr.len := ⟨by decide, _, rfl, by decide, by decide⟩

theorem test_witness_AidxReadsTheElement : heapMachine.heap.present (heapMachine.reg 2) = false ∧
    ∃ arr, heapMachine.heap.arr? (heapMachine.reg 1) = some arr ∧ heapMachine.reg 1 < arr.len ∧ arr.len ≤ heapMachine.reg 2 :=
  ⟨by decide, _, rfl, by decide, by decide⟩

theorem test_witness_AmendWritesTheElement : heapMachine.heap.present (heapMachine.reg 3) = false ∧
    ∃ arr, heapMachine.heap.arr? (heapMachine.reg 1) = some arr ∧ heapMachine.reg 1 < arr.len ∧ arr.len ≤ heapMachine.reg 2 :=
  ⟨by decide, _, rfl, by decide, by decide⟩

theorem test_witness_StoreThenLoadReturnsValue :
    ∃ arr, heapMachine.heap.arr? (heapMachine.reg 1) = some arr ∧ heapMachine.reg 1 < arr.len := ⟨_, rfl, by decide⟩

theorem test_witness_FetchSeesEveryStore :
    ∃ arr, heapMachine.heap.arr? (heapMachine.reg 0) = some arr ∧ heapMachine.reg 0 < arr.len := ⟨_, rfl, by decide⟩

/-- The word 77 of array 1 stays fetched over a store beside it, at offset 0, and over an ALLOC. -/
theorem test_witness_FetchSeesEveryStore_later : heapMachine.heap.wf = true ∧ heapMachine.heap.fetch 1 1 = .ok 77#32 ∧
    (∃ u, exec (.amend 1 0 3) heapMachine = .next u ∧ u.heap.present 1 = true) ∧
    effectiveAddress heapMachine 1 0 ≠ (1#32, 1#32) ∧
    ∃ u, exec (.alloc 4 3) heapMachine = .next u ∧ u.heap.present 1 = true :=
  ⟨by decide, by decide, ⟨_, rfl, by decide⟩, by decide, _, rfl, by decide⟩

/-- In `heapMachine` identifier 1 is allocated and 2 is free: with `ID_MAX` 2 the smallest free is 2. -/
theorem heapMachine_smallestFree (capacity : Option Nat) : SmallestFree (builtWith 2#32 capacity) 2#32 := by
  refine ⟨by decide, BitVec.le_refl _, (by decide : heapMachine.heap.isAllocated 2#32 = false), fun q h0 h1 => ?_⟩
  obtain rfl : q = 1#32 := by bv_omega
  exact (by decide : heapMachine.heap.isAllocated 1#32 = true)

/-- 2 words of array 1 and 2 more fit 4; 3 more do not. -/
theorem test_witness_AllocReturnsSmallestFree : heapMachine.heap.wf = true ∧ SmallestFree (builtWith 2#32 (some 4)) 2#32 ∧
    CapacityAllows (builtWith 2#32 (some 4)) (heapMachine.reg 2) ∧
    ¬ CapacityAllows (builtWith 2#32 (some 4)) (heapMachine.reg 3) := by
  refine ⟨by decide, heapMachine_smallestFree _, fun c hc => ?_, fun h => absurd (h 4 rfl) (by decide)⟩
  obtain rfl : 4 = c := by injection hc
  decide

/-- With `ID_MAX` 1 no identifier is free. -/
theorem test_witness_AllocReturnsSmallestFree_none : NoneFree (builtWith 1#32 none) := by
  intro q h0 h1
  have h1 : q ≤ 1#32 := h1
  obtain rfl : q = 1#32 := by bv_omega
  decide

/-- Identifier 1 is allocated and active; identifier 2 is not allocated. -/
theorem test_witness_AbandonFreesTheArray :
    ({ heapMachine with active := 1#32 } : State).active = heapMachine.reg 1 ∧
    heapMachine.heap.isAllocated (heapMachine.reg 1) = true ∧ heapMachine.heap.isAllocated (heapMachine.reg 2) = false := by
  decide

theorem test_witness_AbandonedIdentifierIsReused :
    (builtWith 2#32 none).heap.wf = true ∧ (builtWith 2#32 none).cfg.capacity = none ∧ SmallestFree (builtWith 2#32 none) 2#32 :=
  ⟨by decide, rfl, heapMachine_smallestFree none⟩

/-- An input of one byte, not yet consumed; with `in_pos` at 1 it is at its end. -/
def inputMachine (inPos : Nat) (inValid outReady : List Bool) : State :=
  { heapMachine with inPos := inPos
                     env := { Env.quiet with input := [0x48#8], inValid := inValid, outReady := outReady } }

theorem test_witness_OutEmitsTheLowByte : (inputMachine 0 [] [true, false]).env.outReady.headD true = true := by decide

/-- The byte clause and the end-of-input clause. -/
theorem test_witness_InReadsOneByte : (inputMachine 0 [true] []).env.inValid.headD true = true ∧
    (inputMachine 0 [true] []).env.input[0]? = some 0x48#8 ∧ (inputMachine 1 [] []).env.inValid.headD true = true ∧
    (inputMachine 1 [] []).env.input.length ≤ (inputMachine 1 [] []).inPos := by decide

theorem test_witness_HeldPortChangesNothing : (inputMachine 0 [false] [false]).env.inValid.headD true = false ∧
    (inputMachine 0 [false] [false]).env.outReady.headD true = false := by decide

/-- A running machine whose next instruction is OUT. -/
def outMachine : State := machine #v[72, 0, 0, 0, 0, 0, 0, 0] [0xA0000000#32]

theorem test_witness_OutputIsAppendedAndNeverRead :
    outMachine.resetAsserted = false ∧ ∃ t, step outMachine = .next t ∧ t.out = [72#8] := ⟨rfl, _, rfl, by decide⟩

theorem test_witness_EndOfInputIsSticky : (inputMachine 1 [] []).resetAsserted = false ∧ (inputMachine 1 [] []).status ≠ .idle ∧
    (inputMachine 1 [] []).env.input.length ≤ (inputMachine 1 [] []).inPos ∧ ∃ t, step (inputMachine 1 [] []) = .next t :=
  ⟨rfl, by decide, by decide, _, rfl⟩

theorem test_witness_HaltStopsTheMachine : heapMachine.resetAsserted = false ∧ heapMachine.advance.halt.resetAsserted = false := by
  decide

/-- Identifiers 0 and 1 are present, 2 is not. -/
theorem test_witness_LoadprogJumpsExactly : heapMachine.heap.present (heapMachine.reg 0) = true ∧ heapMachine.reg 0 = 0#32 ∧
    heapMachine.heap.present (heapMachine.reg 1) = true ∧ heapMachine.heap.present (heapMachine.reg 2) = false := by decide

theorem test_witness_StepRunsTheDecodedInstruction : heapMachine.resetAsserted = false ∧ heapMachine.status = .running ∧
    heapMachine.heap.fetch heapMachine.active heapMachine.pc = .ok 0x70000000#32 ∧ decode 0x70000000#32 = .ok .halt ∧
    Instr.halt.wellFormed = true := by decide

/-- The active array abandoned; and `pc` exactly at the end of array 0. -/
theorem test_witness_FetchFaultsEndTheRun : heapMachine.resetAsserted = false ∧ heapMachine.status = .running ∧
    ({ heapMachine with active := 2#32 } : State).heap.present 2#32 = false ∧
    ∃ arr, ({ heapMachine with pc := 1#32 } : State).heap.arr? heapMachine.active = some arr ∧ arr.len ≤ 1#32 :=
  ⟨rfl, rfl, by decide, _, rfl, by decide⟩

theorem test_witness_FaultsArePrecise : ({ heapMachine with pc := 1#32 } : State).status = .running ∧
    ∃ t, cycle { heapMachine with pc := 1#32 } = .next t ∧ t.status = .faulted .programCounterOutOfBounds :=
  ⟨rfl, _, rfl, rfl⟩

/-- Every status the clauses name, with a next state. -/
theorem test_witness_StatusTransitions :
    (State.reset.resetAsserted = false ∧ State.reset.status = .idle ∧ ∃ t, step State.reset = .next t) ∧
    (heapMachine.status = .running ∧ currentInstr heapMachine = .ok .halt ∧ ∃ t, step heapMachine = .next t) ∧
    (∃ t, step { heapMachine with status := .halted } = .next t) ∧
    (∃ t, step { heapMachine with status := .faulted .outOfBounds } = .next t) :=
  ⟨⟨rfl, rfl, _, rfl⟩, ⟨rfl, by decide, _, rfl⟩, ⟨_, rfl⟩, ⟨_, rfl⟩⟩

/-- An instruction that advances, one that faults, and one that is held. -/
theorem test_witness_OnlyLoadprogRedirects : heapMachine.status = .running ∧
    (∃ t, exec .halt heapMachine = .next t ∧ t.pc = heapMachine.pc + 1#32) ∧
    (∃ t, exec (.abandon 0) heapMachine = .next t ∧ t.pc = heapMachine.pc) ∧
    (∃ t, exec (.inp 0) (inputMachine 0 [false] []) = .next t ∧ t.pc = heapMachine.pc) ∧ ∀ b c, Instr.halt ≠ .loadprog b c :=
  ⟨rfl, ⟨_, rfl, rfl⟩, ⟨_, rfl, rfl⟩, ⟨_, rfl, rfl⟩, nofun⟩

theorem test_witness_OnlyTheDestinationIsWritten :
    (∃ t, exec (.add 1 2 3) heapMachine = .next t) ∧ instrDestination (.add 1 2 3) ≠ some 7 := ⟨⟨_, rfl⟩, by decide⟩

theorem test_witness_OnlyTheNamedFaultsAreRaised :
    heapMachine.status = .running ∧ ∃ t, exec (.div 1 2 0) heapMachine = .next t ∧ t.status = .faulted .divisionByZero :=
  ⟨rfl, _, rfl, rfl⟩

/-- The last offset of array 0. -/
theorem test_witness_AdvancedPcDoesNotWrap :
    heapMachine.heap.fetch heapMachine.active heapMachine.pc = .ok 0x70000000#32 := by decide

theorem test_witness_LengthsAndIdentifierStates :
    heapMachine.heap.wf = true ∧ ∃ t, exec (.alloc 4 3) heapMachine = .next t := ⟨by decide, _, rfl⟩

theorem test_witness_ProgramArrayIsPermanent :
    heapMachine.resetAsserted = false ∧ heapMachine.status ≠ .idle ∧ ∃ t, step heapMachine = .next t :=
  ⟨rfl, by decide, _, rfl⟩

theorem test_witness_StepKeepsInvariant : MachineInv heapMachine ∧ ∃ t, step heapMachine = .next t :=
  ⟨⟨by decide, ⟨rfl, by decide⟩, (fun _ h => by cases h), Or.inl rfl, by decide, (fun h => by cases h)⟩, _, rfl⟩

/-- `heapMachine`, and the same with identifier 2 never produced. -/
theorem test_witness_FreedIsLikeNeverAllocated :
    let s' : State := { heapMachine with heap := { heapMachine.heap with ids := [(1, .allocated { len := 2#32, cells := [(1, 77#32)] })] } }
    heapMachine.heap.wf = true ∧ s'.heap.wf = true ∧ SameButHistory heapMachine s' ∧ s' ≠ heapMachine ∧
      ∃ t, step heapMachine = .next t := by
  refine ⟨by decide, by decide, ⟨rfl, rfl, rfl, rfl, rfl, rfl, rfl, rfl, rfl, fun id => ?_⟩, by decide, _, rfl⟩
  by_cases h0 : id = 0#32
  · subst h0; rfl
  · simp only [Heap.arr?, Heap.idState, if_neg h0, heapMachine, sparseFind]
    by_cases h1 : 1 = id.toNat
    · simp [← h1]
    · by_cases h2 : 2 = id.toNat <;> simp [h1, h2]

theorem test_witness_ParametersAreConstant : heapMachine.status ≠ .idle ∧ ∃ t, step heapMachine = .next t :=
  ⟨by decide, _, rfl⟩

theorem test_witness_ResetEstablishesResetValues :
    ({ heapMachine with env := { Env.quiet with resetIn := [true] } } : State).resetAsserted = true := by decide

/-- Two words, so that `k` = 0 and `k` = 1 are both below the length. -/
theorem test_witness_LoadPortDeliversTheProgram :
    [0xD0000048#32, 0x70000000#32].length < 2 ^ 32 ∧ Env.quiet.resetIn = [] := by decide

theorem test_witness_LoadPortIsDeadAfterStart : heapMachine.status ≠ .idle ∧ ∃ t, step heapMachine = .next t :=
  ⟨by decide, _, rfl⟩

/-- A held machine that takes its second word: offset 0 is below the length before. -/
theorem test_witness_HeldMachineOnlyLoads :
    let s : State := { State.reset with heap := { prog := { len := 1#32, cells := [] }, ids := [] }
                                        env := { Env.quiet with load := [.word 5#32] } }
    s.resetAsserted = false ∧ s.status = .idle ∧ 0#32 < s.heap.prog.len ∧ ∃ t, step s = .next t :=
  ⟨rfl, rfl, by decide, _, rfl⟩

/-- A command that faults, and a canonical heap. -/
theorem test_witness_HeapCommandsAreAtomic :
    (heapMachine.heap.command Config.standard (.abandon 0#32)).1.ok = false ∧ heapMachine.heap.wf = true := by decide

/-- A machine about to take a byte, and one about to emit one. -/
theorem test_witness_PortSignalsMatchTheStep :
    let s : State := { machine #v[0, 0, 0, 0, 0, 0, 0, 0] [0xB0000000#32] with env := { Env.quiet with input := [0x48#8] } }
    (s.resetAsserted = false ∧ inTake s = true ∧ ∃ t, step s = .next t) ∧
    (outMachine.resetAsserted = false ∧ outOffer outMachine = some 72#8 ∧ outMachine.sinkReady = true ∧
      ∃ t, step outMachine = .next t ∧ t.out ≠ outMachine.out) :=
  ⟨⟨rfl, by decide, _, rfl⟩, rfl, by decide, rfl, _, rfl, by decide⟩

theorem test_witness_ResultAfterTheEnd :
    ({ heapMachine with status := .halted } : State).status.terminal = true ∧ heapMachine.resetAsserted = false ∧
    ({ heapMachine with status := .faulted .outOfMemory } : State).status.terminal = true ∧
    ({ heapMachine with status := .halted } : State).diagnostic.isSome = true := by decide

end Sys2Proof.Tests
end

/-! ## The state (10_state.md): the register file and array 0 -/

namespace Sys2Proof.Machine

/-! ### A register write -/

/-- A state with the same heap has the same memory, Word by Word and identifier by identifier. -/
theorem sameMemory_of_heap_eq {s t : State} (h : t.heap = s.heap) : SameMemory s t :=
  ⟨fun _ _ => by rw [h], fun _ => by rw [h]⟩

theorem onlyRegAndPc_setReg (i : RegIdx) (v : Word) (s : State) : OnlyRegAndPc i s (s.setReg i v) :=
  ⟨fun _ hr => s.setReg_reg_other v hr, sameMemory_of_heap_eq (s.setReg_heap i v), ⟨rfl, rfl⟩, ⟨rfl, rfl⟩, ⟨rfl, rfl⟩⟩

/-- Settles O7: the read after the write is `setReg_reg_same`, the rest is the frame of `setReg`. -/
theorem registerWriteChangesOneRegister : Obligations.RegisterWriteChangesOneRegister :=
  fun s i v => ⟨s.setReg_reg_same i v, s.setReg_pc i v, onlyRegAndPc_setReg i v s⟩

/-! ### Array 0 under the operations of the heap (20_memory.md R37 to R39) -/

/-- An array put in the place of one of its length leaves the length of array 0, be it array 0 or another. -/
theorem Heap.setArr_prog_len {h : Heap} {id : Word} {a b : Arr} (ha : h.arr? id = some a) (hl : b.len = a.len) :
    (h.setArr id b).prog.len = h.prog.len := by
  unfold Heap.setArr
  split
  · subst id
    rw [Heap.arr?_zero, Option.some.injEq] at ha
    rw [Heap.setProg_prog, hl, ha]
  · rfl

/-- A store changes an element of array 0 at most, never its length. -/
theorem Heap.memWrite_prog_len {h h' : Heap} {id off v : Word} (e : h.memWrite id off v = .ok h') :
    h'.prog.len = h.prog.len := by
  obtain ⟨a, ha, -, rfl⟩ := Heap.memWrite_ok.mp e
  exact Heap.setArr_prog_len ha (a.write_len off v)

theorem Heap.allocate_prog {h h' : Heap} {cfg : Config} {n id : Word} (e : h.allocate cfg n = .ok (id, h')) :
    h'.prog = h.prog := by
  obtain ⟨-, -, -, -, rfl⟩ := Heap.allocate_ok e
  exact h.putSlot_prog id _

theorem Heap.abandon_prog {h h' : Heap} {id : Word} (e : h.abandon id = .ok h') : h'.prog = h.prog := by
  obtain ⟨-, rfl⟩ := Heap.abandon_ok.mp e
  exact h.putSlot_prog id .freed

/-! ### Array 0 over an instruction, a cycle and a step -/

/-- Only a store, an allocation and an abandonment touch the heap at all. -/
theorem Effect.prog_len {s t : State} {i : Instr} (e : Effect s i t) : t.heap.prog.len = s.heap.prog.len := by
  cases e with
  | stored a b c h e => exact Heap.memWrite_prog_len e
  | allocated a b id h e => exact congrArg Arr.len (Heap.allocate_prog e)
  | abandoned c h e => exact congrArg Arr.len (Heap.abandon_prog e)
  | faulted | wrote | kept | halted | emitted | outHeld | byteRead | endRead | inHeld | jumped => rfl

theorem cycle_prog_len {s t : State} (h : cycle s = .next t) : t.heap.prog.len = s.heap.prog.len := by
  rcases cycle_cases h with ⟨r, -, rfl⟩ | ⟨i, -, hi⟩
  · rw [takeFault_heap]
  · exact (exec_effect hi).prog_len

/-- The load port serves a held machine only, and reset alone empties array 0 (70_reset_and_hazards.md R150, R153). -/
theorem step_prog_len {s t : State} (hr : s.resetAsserted = false) (hi : s.status ≠ .idle) (h : step s = .next t) :
    t.heap.prog.len = s.heap.prog.len := by
  rcases step_cases h with ⟨hr', -⟩ | ⟨-, hi', -⟩ | ⟨-, -, hc⟩ | ⟨-, -, rfl⟩
  · rw [hr] at hr'
    contradiction
  · contradiction
  · rw [cycle_prog_len hc, State.tickReset_heap]
  · rw [State.tickReset_heap]

/-- Settles O38: identifier 0 denotes the program array in every state, and a step of a started machine that is not a
reset keeps its length (`step_prog_len`). -/
theorem programArrayIsPermanent : Obligations.ProgramArrayIsPermanent :=
  fun s => ⟨s.heap.idState_zero, s.heap.present_zero, fun _ hr hi h => step_prog_len hr hi h⟩

end Sys2Proof.Machine

/-! ## Memory (20_memory.md): the checks of an access, the identifier states, and fetches after a store -/

namespace Sys2Proof.Machine

/-! ### The two checks of a data access (R35) -/

theorem Heap.present_eq_false {h : Heap} {id : Word} : h.present id = false ↔ h.arr? id = none := by
  simp [Heap.present]

theorem Heap.checked_of_absent {h : Heap} {id : Word} (hp : h.present id = false) (off : Word) :
    h.checked id off = .error .invalidArray := by
  simp only [Heap.checked, Heap.present_eq_false.mp hp]

theorem Heap.checked_of_len_le {h : Heap} {id off : Word} {a : Arr} (ha : h.arr? id = some a) (ho : a.len ≤ off) :
    h.checked id off = .error .outOfBounds := by
  simp only [Heap.checked, ha, if_pos ho]

/-- A failed check is the read's fault. -/
theorem Heap.memRead_of_checked_error {h : Heap} {id off : Word} {r : Reason} (e : h.checked id off = .error r) :
    h.memRead id off = .error r := by
  simp only [Heap.memRead, e]

/-- A failed check is the write's fault, whatever was to be written. -/
theorem Heap.memWrite_of_checked_error {h : Heap} {id off : Word} {r : Reason} (e : h.checked id off = .error r)
    (v : Word) : h.memWrite id off v = .error r := by
  simp only [Heap.memWrite, e]

/-- Settles O13: a read and a write answer the fault of the one check they share, and go through when it does. -/
theorem dataAccessChecks : Obligations.DataAccessChecks := by
  intro h id off v
  refine ⟨fun hp => ?_, fun a ha ho => ?_, fun a ha ho => ?_⟩
  · have e := Heap.checked_of_absent hp off
    exact ⟨Heap.memRead_of_checked_error e, Heap.memWrite_of_checked_error e v⟩
  · have e := Heap.checked_of_len_le ha ho
    exact ⟨Heap.memRead_of_checked_error e, Heap.memWrite_of_checked_error e v⟩
  · exact ⟨⟨_, Heap.memRead_ok.mpr ⟨a, ha, ho, rfl⟩⟩, ⟨_, Heap.memWrite_ok.mpr ⟨a, ha, ho, rfl⟩⟩⟩

/-! ### Identifier states under the operations of the heap (R32, R37 to R39) -/

@[simp] theorem IdState.sameShape_refl (p : IdState) : p.sameShape p = true := by
  cases p <;> simp [IdState.sameShape]

/-- Two identifier states of one shape are a transition R32 allows: nothing moved. -/
theorem IdState.mayBecome_of_sameShape {p q : IdState} (h : p.sameShape q = true) : p.mayBecome q = true := by
  unfold IdState.mayBecome
  split
  · rfl
  · rfl
  · rfl
  · exact h

/-- An identifier is absent when it was never produced or is freed (R33). -/
theorem Heap.arr?_none {h : Heap} {id : Word} :
    h.arr? id = none ↔ h.idState id = .unallocated ∨ h.idState id = .freed := by
  unfold Heap.arr?
  cases h.idState id <;> simp

/-- A store changes the shape of no identifier's state. -/
theorem Heap.memWrite_sameShape {h h' : Heap} {id off v : Word} (e : h.memWrite id off v = .ok h') (q : Word) :
    (h.idState q).sameShape (h'.idState q) = true := by
  obtain ⟨a, ha, -, rfl⟩ := Heap.memWrite_ok.mp e
  rw [Heap.setArr_idState]
  by_cases hq : q = id
  · subst hq
    rcases Heap.arr?_some.mp ha with ⟨rfl, rfl⟩ | hs
    · simp [IdState.sameShape]
    · simp [hs, (Heap.idState_allocated.mp hs).1, IdState.sameShape]
  · simp [hq]

theorem Heap.allocate_idState {h h' : Heap} {cfg : Config} {n id : Word} (e : h.allocate cfg n = .ok (id, h'))
    (q : Word) : h'.idState q = if q = id then .allocated (Arr.zeros n) else h.idState q := by
  obtain ⟨hid, -, -, -, rfl⟩ := Heap.allocate_ok e
  exact h.putSlot_idState hid _ q

/-- On a canonical heap the identifier ALLOCATE answers was absent before. -/
theorem Heap.allocate_absent {h h' : Heap} {cfg : Config} {n id : Word} (hw : h.wf = true)
    (e : h.allocate cfg n = .ok (id, h')) : h.arr? id = none := by
  obtain ⟨hid, hfree, -⟩ := Heap.allocate_ok e
  obtain ⟨-, hsorted, -⟩ := (Heap.wf_iff h).mp hw
  refine Option.eq_none_iff_forall_ne_some.mpr fun a ha => ?_
  rcases Heap.arr?_some.mp ha with ⟨h0, -⟩ | hs
  · exact hid h0
  · exact (firstFree_spec hsorted).1 a (hfree ▸ (Heap.idState_allocated.mp hs).2)

theorem Heap.abandon_idState {h h' : Heap} {id : Word} (e : h.abandon id = .ok h') (q : Word) :
    h'.idState q = if q = id then .freed else h.idState q := by
  obtain ⟨⟨a, ha⟩, rfl⟩ := Heap.abandon_ok.mp e
  exact h.putSlot_idState (Heap.idState_allocated.mp ha).1 _ q

/-- The transitions of R32: a store keeps every shape, ALLOC takes an absent identifier, ABANDON an allocated one. -/
theorem Effect.mayBecome {i : Instr} {s t : State} (hw : s.heap.wf = true) (e : Effect s i t) (q : Word) :
    (s.heap.idState q).mayBecome (t.heap.idState q) = true := by
  have same : (s.heap.idState q).mayBecome (s.heap.idState q) = true :=
    IdState.mayBecome_of_sameShape (IdState.sameShape_refl _)
  cases e with
  | stored a b c h e => exact IdState.mayBecome_of_sameShape (Heap.memWrite_sameShape e q)
  | allocated a b id h e =>
    rw [State.advance_heap, State.setReg_heap, State.setHeap_heap, Heap.allocate_idState e]
    split
    · subst q
      rcases Heap.arr?_none.mp (Heap.allocate_absent hw e) with hs | hs <;> rw [hs] <;> rfl
    · exact same
  | abandoned c h e =>
    rw [State.advance_heap, State.setHeap_heap, Heap.abandon_idState e]
    split
    · subst q
      obtain ⟨⟨a, hs⟩, -⟩ := Heap.abandon_ok.mp e
      rw [hs]
      rfl
    · exact same
  | faulted | wrote | kept | halted | emitted | outHeld | byteRead | endRead | inHeld | jumped => exact same

/-- Settles O37: the transitions of `Effect.mayBecome`, an equal length included wherever an array lives on. -/
theorem lengthsAndIdentifierStates : Obligations.LengthsAndIdentifierStates :=
  fun _ _ _ id hw h => (exec_effect h).mayBecome hw id

/-! ### Fetches after a store (R37, R40, R48) -/

theorem Heap.fetch_of_idState {h h' : Heap} {q : Word} (e : h'.idState q = h.idState q) (off : Word) :
    h'.fetch q off = h.fetch q off := by
  simp only [Heap.fetch, Heap.arr?_of_idState e]

/-- What is fetched after a store: the stored Word at its address, and as before everywhere else. -/
theorem Heap.memWrite_fetch {h h' : Heap} {id off v : Word} (e : h.memWrite id off v = .ok h') (q p : Word) :
    h'.fetch q p = if (q, p) = (id, off) then .ok v else h.fetch q p := by
  obtain ⟨a, ha, ho, rfl⟩ := Heap.memWrite_ok.mp e
  simp only [Heap.fetch, Heap.setArr_arr?, Prod.mk.injEq]
  by_cases hq : q = id
  · subst hq
    by_cases hp : p = off
    · subst hp
      simp [Arr.write_read, BitVec.not_le.mpr ho]
    · simp [Arr.write_read, ha, hp]
  · simp [hq]

/-- ALLOCATE answers an absent identifier, so another than any that was fetched from. -/
theorem Heap.allocate_fetch {h h' : Heap} {cfg : Config} {n id q off w : Word} (hw : h.wf = true)
    (e : h.allocate cfg n = .ok (id, h')) (hf : h.fetch q off = .ok w) : h'.fetch q off = .ok w := by
  have hq : q ≠ id := by
    rintro rfl
    obtain ⟨a, ha, -⟩ := Heap.fetch_ok.mp hf
    simp [Heap.allocate_absent hw e] at ha
  have hs : h'.idState q = h.idState q := by rw [Heap.allocate_idState e, if_neg hq]
  rw [Heap.fetch_of_idState hs, hf]

/-- What is still present after an abandonment is another array than the abandoned one. -/
theorem Heap.abandon_fetch {h h' : Heap} {id q : Word} (e : h.abandon id = .ok h') (hp : h'.present q = true)
    (off : Word) : h'.fetch q off = h.fetch q off := by
  have hs := Heap.abandon_idState e q
  have hq : q ≠ id := by
    intro hq
    rw [if_pos hq] at hs
    simp [Heap.present_eq_false.mpr (Heap.arr?_none.mpr (.inr hs))] at hp
  rw [if_neg hq] at hs
  exact Heap.fetch_of_idState hs off

/-- One instruction leaves a fetched Word as it is while its array is present, unless it is an AMEND to its address. -/
theorem Effect.fetch_stays {i : Instr} {s t : State} {id off w : Word} (hw : s.heap.wf = true) (e : Effect s i t)
    (hf : s.heap.fetch id off = .ok w) (hi : ∀ a b c, i = .amend a b c → effectiveAddress s a b ≠ (id, off))
    (hp : t.heap.present id = true) : t.heap.fetch id off = .ok w := by
  cases e with
  | stored a b c h e =>
    have hne : (id, off) ≠ (s.reg a, s.reg b) := Ne.symm (hi a b c rfl)
    rw [State.advance_heap, State.setHeap_heap, Heap.memWrite_fetch e, if_neg hne, hf]
  | allocated a b new h e => exact Heap.allocate_fetch hw e hf
  | abandoned c h e => exact (Heap.abandon_fetch e hp off).trans hf
  | faulted | wrote | kept | halted | emitted | outHeld | byteRead | endRead | inHeld | jumped => exact hf

/-- Every instruction keeps the canonical form of the heap. -/
theorem Effect.heap_wf {i : Instr} {s t : State} (hw : s.heap.wf = true) (e : Effect s i t) : t.heap.wf = true := by
  cases e with
  | stored a b c h e => exact Heap.memWrite_wf hw e
  | allocated a b id h e => exact Heap.allocate_wf hw e
  | abandoned c h e => exact Heap.abandon_wf hw e
  | faulted | wrote | kept | halted | emitted | outHeld | byteRead | endRead | inHeld | jumped => exact hw

/-- An AMEND whose write goes through completes with the heap it leaves (42_array_access.md R96). -/
theorem exec_amend_of_memWrite {a b c : RegIdx} {s : State} {h : Heap}
    (e : s.heap.memWrite (s.reg a) (s.reg b) (s.reg c) = .ok h) :
    exec (.amend a b c) s = .next (s.setHeap h).advance := by
  simp only [exec, execAmend, effectiveAddress, e, conclude]

/-- Settles O17: what the AMEND's heap fetches is `Heap.memWrite_fetch`, what later instructions leave of it is
`Effect.fetch_stays`. -/
theorem fetchSeesEveryStore : Obligations.FetchSeesEveryStore := by
  refine ⟨fun a b c s arr ha ho => ?_, fun i t u id off w hw hf h hi hp => ?_⟩
  · obtain ⟨h, e⟩ : ∃ h, s.heap.memWrite (s.reg a) (s.reg b) (s.reg c) = .ok h :=
      ⟨_, Heap.memWrite_ok.mpr ⟨arr, ha, ho, rfl⟩⟩
    refine ⟨_, exec_amend_of_memWrite e, ?_, fun id off hne => ?_, fun hw => Heap.memWrite_wf hw e⟩
    · rw [State.advance_heap, State.setHeap_heap, Heap.memWrite_fetch e, if_pos rfl]
    · rw [State.advance_heap, State.setHeap_heap, Heap.memWrite_fetch e]
      exact if_neg hne
  · exact ⟨(exec_effect h).fetch_stays hw hf hi hp, (exec_effect h).heap_wf hw⟩

end Sys2Proof.Machine

/-! ## The execution cycle (40_execution_cycle.md): faults are precise -/

namespace Sys2Proof.Machine

/-- What an instruction does to the status: a fault of its own is taken, HALT halts, anything else leaves it. -/
theorem Effect.status_cases {i : Instr} {s t : State} (e : Effect s i t) :
    (∃ r ∈ instrFaults i, t = takeFault r s) ∨ (i = .halt ∧ t = s.advance.halt) ∨ t.status = s.status := by
  cases e with
  | faulted i r hr => exact .inl ⟨r, hr, rfl⟩
  | halted => exact .inr (.inl ⟨rfl, rfl⟩)
  | wrote | kept | stored | allocated | abandoned | emitted | outHeld | byteRead | endRead | inHeld | jumped =>
    exact .inr (.inr rfl)

/-- What a cycle does to the status. Every way to fault, in the fetch, the decode or the instruction, is `takeFault` in
the state before the cycle (60_exceptions.md R138). -/
theorem cycle_status_cases {s t : State} (h : cycle s = .next t) :
    (∃ r, t = takeFault r s) ∨ t.status = .halted ∨ t.status = s.status := by
  rcases cycle_cases h with ⟨r, -, ht⟩ | ⟨i, -, hi⟩
  · exact .inl ⟨r, ht⟩
  · rcases (exec_effect hi).status_cases with ⟨r, -, ht⟩ | ⟨-, rfl⟩ | hst
    · exact .inl ⟨r, ht⟩
    · exact .inr (.inl s.advance.halt_status)
    · exact .inr (.inr hst)

/-- Settles O31: of the things a cycle does to the status (`cycle_status_cases`), only taking a fault makes a running
machine a faulted one, and it writes nothing else. -/
theorem faultsArePrecise : Obligations.FaultsArePrecise := by
  intro s t r hs h ht
  rcases cycle_status_cases h with ⟨r', rfl⟩ | hst | hst
  · rw [takeFault_status, Status.faulted.injEq] at ht
    rw [ht, takeFault]
  · rw [hst] at ht
    contradiction
  · rw [hst, hs] at ht
    contradiction

end Sys2Proof.Machine

/-! ## What the decoder extracts from an encoded word (30_encoding.md R61, R62, R74) -/

namespace Sys2Proof

/-- A register index has three bits (10_state.md R13). -/
theorem testBit_regIdx (r : RegIdx) {k : Nat} (h : 3 ≤ k) : r.val.testBit k = false :=
  Nat.testBit_lt_two_pow (r.isLt.trans_le (Nat.pow_le_pow_right two_pos h))

theorem extractLsb'_eq_of_getLsbD {w : Word} {k n : Nat} {x : BitVec n}
    (h : ∀ i < n, w.getLsbD (k + i) = x.getLsbD i) : w.extractLsb' k n = x :=
  BitVec.eq_of_getLsbD_eq fun i hi => by
    rw [BitVec.getLsbD_extractLsb', h i hi, decide_eq_true hi, Bool.true_and]

theorem toFin_extractLsb'_eq_of_testBit {w : Word} {k : Nat} {r : RegIdx}
    (h : ∀ i < 3, w.getLsbD (k + i) = r.val.testBit i) : (w.extractLsb' k 3).toFin = r :=
  congrArg BitVec.toFin (extractLsb'_eq_of_getLsbD (n := 3) (x := BitVec.ofFin r) h)

@[simp] theorem opcodeAt_opcodeNum (op : Opcode) : opcodeAt (opcodeNum op) = some op := by
  cases op <;> rfl

/-- The standard layout bit by bit: C, B, A, the filler bits 27:9, which are zero, and the opcode. -/
theorem getLsbD_encodeStd (op : Opcode) (a b c : RegIdx) {k : Nat} (hk : k < 32) :
    (encodeStd op a b c).getLsbD k =
      if k < 3 then c.val.testBit k
      else if k < 6 then b.val.testBit (k - 3)
      else if k < 9 then a.val.testBit (k - 6)
      else if k < 28 then false
      else (opcodeNum op).getLsbD (k - 28) := by
  simp only [encodeStd, BitVec.getLsbD_or, BitVec.getLsbD_shiftLeft, BitVec.getLsbD_setWidth, BitVec.getLsbD_ofNat]
  grind [testBit_regIdx]

/-- The immediate-load layout bit by bit: the immediate, the register and the opcode. -/
theorem getLsbD_encodeImm (ri : RegIdx) (v : Imm25) {k : Nat} (hk : k < 32) :
    (encodeImm ri v).getLsbD k =
      if k < 25 then v.getLsbD k
      else if k < 28 then ri.val.testBit (k - 25)
      else (opcodeNum .ldi).getLsbD (k - 28) := by
  simp only [encodeImm, BitVec.getLsbD_or, BitVec.getLsbD_shiftLeft, BitVec.getLsbD_setWidth, BitVec.getLsbD_ofNat]
  grind [testBit_regIdx]

@[simp] theorem fieldOP_encodeStd (op : Opcode) (a b c : RegIdx) : fieldOP (encodeStd op a b c) = opcodeNum op :=
  extractLsb'_eq_of_getLsbD fun i hi => by
    simp (disch := omega) only [getLsbD_encodeStd, if_neg, Nat.add_sub_cancel_left]

@[simp] theorem fieldA_encodeStd (op : Opcode) (a b c : RegIdx) : fieldA (encodeStd op a b c) = a :=
  toFin_extractLsb'_eq_of_testBit fun i hi => by
    simp (disch := omega) only [getLsbD_encodeStd, if_pos, if_neg, Nat.add_sub_cancel_left]

@[simp] theorem fieldB_encodeStd (op : Opcode) (a b c : RegIdx) : fieldB (encodeStd op a b c) = b :=
  toFin_extractLsb'_eq_of_testBit fun i hi => by
    simp (disch := omega) only [getLsbD_encodeStd, if_pos, if_neg, Nat.add_sub_cancel_left]

@[simp] theorem fieldC_encodeStd (op : Opcode) (a b c : RegIdx) : fieldC (encodeStd op a b c) = c :=
  toFin_extractLsb'_eq_of_testBit fun i hi => by
    simp (disch := omega) only [getLsbD_encodeStd, if_pos, Nat.zero_add]

@[simp] theorem fieldOP_encodeImm (ri : RegIdx) (v : Imm25) : fieldOP (encodeImm ri v) = opcodeNum .ldi :=
  extractLsb'_eq_of_getLsbD fun i hi => by
    simp (disch := omega) only [getLsbD_encodeImm, if_neg, Nat.add_sub_cancel_left]

@[simp] theorem fieldRI_encodeImm (ri : RegIdx) (v : Imm25) : fieldRI (encodeImm ri v) = ri :=
  toFin_extractLsb'_eq_of_testBit fun i hi => by
    simp (disch := omega) only [getLsbD_encodeImm, if_pos, if_neg, Nat.add_sub_cancel_left]

@[simp] theorem fieldIMM_encodeImm (ri : RegIdx) (v : Imm25) : fieldIMM (encodeImm ri v) = v :=
  extractLsb'_eq_of_getLsbD fun i hi => by
    simp (disch := omega) only [getLsbD_encodeImm, if_pos, Nat.zero_add]

/-- The standard layout is never selected for the immediate-load opcode (R61). -/
theorem extractFields_encodeStd {op : Opcode} (hop : op ≠ .ldi) (a b c : RegIdx) :
    extractFields (encodeStd op a b c) = .std op a b c := by
  cases op with
  | ldi => contradiction
  | _ => simp [extractFields]

theorem extractFields_encodeImm (ri : RegIdx) (v : Imm25) : extractFields (encodeImm ri v) = .imm ri v := by
  simp [extractFields]

/-- A Word whose fields are an instruction's decodes to it, whatever its filler. -/
theorem decode_of_extractFields {w : Word} {f : Fields} {i : Instr} (hw : extractFields w = f)
    (hf : instrOfFields f = some i) : decode w = .ok i := by
  rw [decode, hw, hf]

end Sys2Proof

/-! ## Data movement (41_data_movement.md): CMOV and LDI -/

namespace Sys2Proof.Machine

/-- The encoding line of CMOV's rule is the encoder's word. -/
theorem standardWord_cmov (a b c : RegIdx) : standardWord 0x00000000#32 a b c = encodeStd .cmov a b c := rfl

/-- The encoding line of LDI's rule is the encoder's word. -/
theorem immediateWord_eq (ri : RegIdx) (v : Imm25) : immediateWord ri v = encodeImm ri v := rfl

theorem onlyRegAndPc_setReg_advance (i : RegIdx) (v : Word) (s : State) : OnlyRegAndPc i s (s.setReg i v).advance :=
  onlyRegAndPc_setReg i v s

theorem onlyRegAndPc_advance (i : RegIdx) (s : State) : OnlyRegAndPc i s s.advance :=
  ⟨fun _ _ => rfl, sameMemory_of_heap_eq rfl, ⟨rfl, rfl⟩, ⟨rfl, rfl⟩, ⟨rfl, rfl⟩⟩

theorem conditionHolds_iff (v : Word) : conditionHolds v = true ↔ v ≠ 0#32 := bne_iff_ne

theorem exec_cmov_of_ne {c : RegIdx} {s : State} (hc : s.reg c ≠ 0#32) (a b : RegIdx) :
    exec (.cmov a b c) s = .next (s.setReg a (s.reg b)).advance := by
  rw [exec, execCmov, if_pos ((conditionHolds_iff _).mpr hc)]

theorem exec_cmov_of_eq {c : RegIdx} {s : State} (hc : s.reg c = 0#32) (a b : RegIdx) :
    exec (.cmov a b c) s = .next s.advance := by
  rw [exec, execCmov, if_neg ((conditionHolds_iff _).not_left.mpr hc)]

/-- The immediate is zero-extended: no bit of it is lost and none is added (30_encoding.md R65). -/
theorem toNat_immOperand (v : Imm25) : (immOperand v).toNat = v.toNat :=
  BitVec.toNat_setWidth_of_le (by decide)

/-- Settles O8: the word is the encoder's; then on a nonzero condition CMOV is a register write, on a zero one only `pc`
moves. -/
theorem cmovMovesOnNonzero : Obligations.CmovMovesOnNonzero := by
  refine fun a b c s => ⟨?_, ?_⟩
  · rw [standardWord_cmov]
    exact decode_of_extractFields (extractFields_encodeStd (op := .cmov) nofun a b c) rfl
  · by_cases hc : s.reg c = 0#32
    · exact ⟨_, exec_cmov_of_eq hc a b, by simp [hc], s.advance_pc, onlyRegAndPc_advance a s⟩
    · exact ⟨_, exec_cmov_of_ne hc a b, by simp [hc], rfl, onlyRegAndPc_setReg_advance a _ s⟩

/-- Settles O9: the word is the encoder's, and LDI is a register write of the zero-extended immediate. -/
theorem ldiLoadsTheImmediate : Obligations.LdiLoadsTheImmediate := by
  refine fun ri imm s => ⟨?_, _, rfl, ?_, rfl, onlyRegAndPc_setReg_advance ri _ s⟩
  · rw [immediateWord_eq]
    exact decode_of_extractFields (extractFields_encodeImm ri imm) rfl
  · rw [State.advance_reg, State.setReg_reg_same, toNat_immOperand]

end Sys2Proof.Machine

/-! ## Array access (42_array_access.md): AIDX and AMEND -/

namespace Sys2Proof.Machine

/-- The encoding line of AIDX's rule is the encoder's word. -/
theorem standardWord_aidx (a b c : RegIdx) : standardWord 0x10000000#32 a b c = encodeStd .aidx a b c := rfl

/-- The encoding line of AMEND's rule is the encoder's word. -/
theorem standardWord_amend (a b c : RegIdx) : standardWord 0x20000000#32 a b c = encodeStd .amend a b c := rfl

/-! ### What the heap shows after a store (R36, R37) -/

/-- After a store an observer sees the stored Word at its address, and what was there before everywhere else. -/
theorem Heap.memWrite_peek {h h' : Heap} {id off v : Word} (e : h.memWrite id off v = .ok h') (q p : Word) :
    h'.peek q p = if (q, p) = (id, off) then some v else h.peek q p := by
  obtain ⟨a, ha, ho, rfl⟩ := Heap.memWrite_ok.mp e
  simp only [Heap.peek_setArr_write ha ho, Prod.mk.injEq]

/-- An update of the heap and of `pc` touches nothing else. -/
theorem onlyMemoryAndPc_setHeap_advance (h : Heap) (s : State) : OnlyMemoryAndPc s (s.setHeap h).advance :=
  ⟨fun _ => rfl, ⟨rfl, rfl⟩, ⟨rfl, rfl⟩, ⟨rfl, rfl⟩⟩

/-! ### The two instructions by the answer of their access; AMEND's completion is `exec_amend_of_memWrite` -/

theorem exec_aidx_of_memRead {b c : RegIdx} {s : State} {v : Word}
    (e : s.heap.memRead (s.reg b) (s.reg c) = .ok v) (a : RegIdx) :
    exec (.aidx a b c) s = .next (s.setReg a v).advance := by
  simp only [exec, execAidx, effectiveAddress, e, conclude]

/-- A failed check is the fault AIDX takes. -/
theorem exec_aidx_of_checked_error {b c : RegIdx} {s : State} {r : Reason}
    (e : s.heap.checked (s.reg b) (s.reg c) = .error r) (a : RegIdx) :
    exec (.aidx a b c) s = .next (takeFault r s) := by
  simp only [exec, execAidx, effectiveAddress, Heap.memRead_of_checked_error e, conclude]

/-- A failed check is the fault AMEND takes, whatever was to be stored. -/
theorem exec_amend_of_checked_error {a b : RegIdx} {s : State} {r : Reason}
    (e : s.heap.checked (s.reg a) (s.reg b) = .error r) (c : RegIdx) :
    exec (.amend a b c) s = .next (takeFault r s) := by
  simp only [exec, execAmend, effectiveAddress, Heap.memWrite_of_checked_error e, conclude]

/-- Settles O15: on a valid access the heap is the one the write answers, seen by `Heap.memWrite_peek` and
`Heap.memWrite_sameShape`; on an invalid one the failed check is the fault. -/
theorem amendWritesTheElement : Obligations.AmendWritesTheElement := by
  refine fun a b c s => ⟨?_, s.heap.arr?_zero, fun arr ha ho => ?_, fun hp => ?_, fun arr ha ho => ?_⟩
  · rw [standardWord_amend]
    exact decode_of_extractFields (extractFields_encodeStd (op := .amend) nofun a b c) rfl
  · obtain ⟨h, e⟩ : ∃ h, s.heap.memWrite (s.reg a) (s.reg b) (s.reg c) = .ok h :=
      ⟨_, Heap.memWrite_ok.mpr ⟨arr, ha, ho, rfl⟩⟩
    exact ⟨_, exec_amend_of_memWrite e, (Heap.memWrite_peek e _ _).trans (if_pos rfl),
      fun id off hne => (Heap.memWrite_peek e id off).trans (if_neg hne), Heap.memWrite_sameShape e, rfl,
      onlyMemoryAndPc_setHeap_advance h s⟩
  · exact exec_amend_of_checked_error (Heap.checked_of_absent hp _) c
  · exact exec_amend_of_checked_error (Heap.checked_of_len_le ha ho) c

/-- Settles O14: on a valid access AIDX is a register write of the element the heap shows there; on an invalid one the
failed check is the fault. -/
theorem aidxReadsTheElement : Obligations.AidxReadsTheElement := by
  refine fun a b c s => ⟨?_, s.heap.arr?_zero, fun arr ha ho => ?_, fun hp => ?_, fun arr ha ho => ?_⟩
  · rw [standardWord_aidx]
    exact decode_of_extractFields (extractFields_encodeStd (op := .aidx) nofun a b c) rfl
  · have e : s.heap.memRead (s.reg b) (s.reg c) = .ok (arr.read (s.reg c)) :=
      Heap.memRead_ok.mpr ⟨arr, ha, ho, rfl⟩
    refine ⟨_, exec_aidx_of_memRead e a, ?_, rfl, onlyRegAndPc_setReg_advance a _ s⟩
    rw [State.advance_reg, State.setReg_reg_same]
    exact Heap.peek_some.mpr ⟨arr, ha, ho, rfl⟩
  · exact exec_aidx_of_checked_error (Heap.checked_of_absent hp _) a
  · exact exec_aidx_of_checked_error (Heap.checked_of_len_le ha ho) a

end Sys2Proof.Machine

/-! ## Arithmetic and logic (43_arithmetic_logic.md): ADD, MUL, DIV, NAND, SUB and MOD -/

namespace Sys2Proof.Machine

/-! ### The encoding lines and the shape the six share -/

/-- The encoding line of a standard-layout instruction's rule decodes to it when its base holds the opcode in bits 31:28
and nothing else. -/
theorem decode_standardWord {base : Word} {op : Opcode} {a b c : RegIdx} {i : Instr}
    (hbase : base = (opcodeNum op).setWidth 32 <<< 28) (hop : op ≠ .ldi) (hi : instrOfFields (.std op a b c) = some i) :
    decode (standardWord base a b c) = .ok i := by
  have hw : standardWord base a b c = encodeStd op a b c := by rw [hbase, standardWord, encodeStd]
  rw [hw]
  exact decode_of_extractFields (extractFields_encodeStd hop a b c) hi

section
variable (f : Word → Word → Word) (a b c : RegIdx) (s : State)

@[simp] theorem binaryOp_reg_same : (binaryOp f a b c s).reg a = f (s.reg b) (s.reg c) := by
  rw [binaryOp, State.advance_reg, State.setReg_reg_same]

@[simp] theorem binaryOp_pc : (binaryOp f a b c s).pc = s.pc + 1#32 := rfl

theorem onlyRegAndPc_binaryOp : OnlyRegAndPc a s (binaryOp f a b c s) := onlyRegAndPc_setReg_advance a _ s

end

/-! ### ADD, MUL, SUB and NAND -/

/-- The difference of two Words is the integer difference reduced modulo 2^32, below zero too (R100). -/
theorem toNat_sub_eq_emod (v w : Word) : ((v - w).toNat : Int) = (v.toNat - w.toNat : Int) % 2 ^ 32 := by
  have hw : w.toNat < 2 ^ 32 := w.isLt
  rw [BitVec.toNat_sub]
  omega

/-- Settles O10: the three are register writes of the 32-bit vector's sum, product and difference. -/
theorem addMulSubWrap : Obligations.AddMulSubWrap := by
  refine fun a b c s => ⟨decode_standardWord (op := .add) rfl nofun rfl, decode_standardWord (op := .mul) rfl nofun rfl,
    decode_standardWord (op := .sub) rfl nofun rfl,
    ⟨_, rfl, ?add, binaryOp_pc .., onlyRegAndPc_binaryOp ..⟩,
    ⟨_, rfl, ?mul, binaryOp_pc .., onlyRegAndPc_binaryOp ..⟩,
    ⟨_, rfl, ?sub, binaryOp_pc .., onlyRegAndPc_binaryOp ..⟩⟩
  case add => rw [binaryOp_reg_same, BitVec.toNat_add]
  case mul => rw [binaryOp_reg_same, BitVec.toNat_mul]
  case sub => rw [binaryOp_reg_same, toNat_sub_eq_emod]

/-- Settles O11: NAND is a register write of the complement of the bitwise and. -/
theorem nandIsBitwise : Obligations.NandIsBitwise := by
  refine fun a b c s => ⟨decode_standardWord (op := .nand) rfl nofun rfl,
    _, rfl, fun k hk => ?_, binaryOp_pc .., onlyRegAndPc_binaryOp ..⟩
  rw [binaryOp_reg_same, BitVec.getLsbD_not, BitVec.getLsbD_and, decide_eq_true hk, Bool.true_and]

/-! ### DIV and MOD (R107) -/

theorem divisorOk_iff (v : Word) : divisorOk v = true ↔ v ≠ 0#32 := bne_iff_ne

theorem dividingOp_of_ne {c : RegIdx} {s : State} (hc : s.reg c ≠ 0#32) (f : Word → Word → Word) (a b : RegIdx) :
    dividingOp f a b c s = .next (binaryOp f a b c s) := by
  rw [dividingOp, if_pos ((divisorOk_iff _).mpr hc), conclude]

theorem dividingOp_of_eq {c : RegIdx} {s : State} (hc : s.reg c = 0#32) (f : Word → Word → Word) (a b : RegIdx) :
    dividingOp f a b c s = .next (takeFault .divisionByZero s) := by
  rw [dividingOp, if_neg ((divisorOk_iff _).not_left.mpr hc), conclude]

/-- Settles O12: with a nonzero divisor the two are register writes of the unsigned quotient and remainder, which the
division of naturals ties to the dividend; a zero divisor is the fault. -/
theorem divModQuotientRemainder : Obligations.DivModQuotientRemainder := by
  refine fun a b c s => ⟨decode_standardWord (op := .div) rfl nofun rfl, decode_standardWord (op := .mod) rfl nofun rfl,
    fun hc => ?_, fun hc => ⟨dividingOp_of_eq hc _ a b, dividingOp_of_eq hc _ a b⟩⟩
  refine ⟨_, _, dividingOp_of_ne hc _ a b, dividingOp_of_ne hc _ a b, ?_, ?_, binaryOp_pc .., binaryOp_pc ..,
    onlyRegAndPc_binaryOp .., onlyRegAndPc_binaryOp ..⟩
  · rw [binaryOp_reg_same, binaryOp_reg_same, BitVec.toNat_udiv, BitVec.toNat_umod, Nat.div_add_mod]
  · rw [binaryOp_reg_same, BitVec.toNat_umod]
    exact Nat.mod_lt _ (BitVec.toNat_pos_of_ne_zero hc)

end Sys2Proof.Machine

/-! ## Byte output (45_io.md R117): appended to, never read -/

namespace Sys2Proof.Machine

/-! ### The state with another output -/

/-- The state with another output. -/
def State.withOut (s : State) (o : List Byte) : State := { s with out := o }

section
variable (s : State) (o : List Byte)

@[simp] theorem State.withOut_heap : (s.withOut o).heap = s.heap := rfl
@[simp] theorem State.withOut_cfg : (s.withOut o).cfg = s.cfg := rfl
@[simp] theorem State.withOut_env : (s.withOut o).env = s.env := rfl
@[simp] theorem State.withOut_reg (i : RegIdx) : (s.withOut o).reg i = s.reg i := rfl
@[simp] theorem State.withOut_inOffer : (s.withOut o).inOffer = s.inOffer := rfl
@[simp] theorem currentInstr_withOut : currentInstr (s.withOut o) = currentInstr s := rfl

end

/-- The outcome with another output in its next state, if it answers one. -/
def outcomeWithOut (o : List Byte) : Host.Outcome State Fault Refusal → Host.Outcome State Fault Refusal
  | .next t => .next (t.withOut o)
  | .fault r => .fault r
  | .refused r => .refused r

theorem conclude_withOut {s : State} {o : List Byte} {e e' : Except Reason State} (he : e' = e.map (·.withOut o)) :
    conclude (s.withOut o) e' = outcomeWithOut o (conclude s e) := by
  subst he
  cases e <;> rfl

/-! ### The instructions: only OUT touches the output -/

/-- An instruction other than OUT commutes with the choice of the output: it neither reads it nor writes it. -/
theorem exec_withOut {i : Instr} (hi : ∀ c, i ≠ .out c) (s : State) (o : List Byte) :
    exec i (s.withOut o) = outcomeWithOut o (exec i s) := by
  cases i with
  | out c => exact absurd rfl (hi c)
  | aidx | amend | alloc | abandon =>
    refine conclude_withOut ?_
    simp only [effectiveAddress, State.withOut_heap, State.withOut_cfg, State.withOut_reg]
    split <;> rfl
  | div | mod | loadprog =>
    refine conclude_withOut ?_
    rw [apply_ite (Except.map _)]
    rfl
  | cmov =>
    refine congrArg Host.Outcome.next ?_
    rw [apply_ite (State.withOut · o)]
    rfl
  | inp =>
    simp only [exec, execInp, State.withOut_inOffer]
    split <;> rfl
  | add | mul | nand | sub | halt | ldi => rfl

theorem exec_out_of_sinkReady {s : State} (hs : s.sinkReady = true) (c : RegIdx) :
    exec (.out c) s = .next (s.tickOut.outByte (lowByte (s.reg c))).advance := by
  rw [exec, execOut, if_pos hs]

theorem exec_out_of_not_sinkReady {s : State} (hs : ¬ s.sinkReady = true) (c : RegIdx) :
    exec (.out c) s = .next s.tickOut := by
  rw [exec, execOut, if_neg hs]

/-! ### Operations that append bytes to the output and do not read it -/

/-- From `s` the operation `f` answers `t` with the bytes `bs` appended to the output, and does the same whatever the
output was. -/
def Appends (f : State → Host.Outcome State Fault Refusal) (s t : State) (bs : List Byte) : Prop :=
  ∀ o : List Byte, f (s.withOut o) = .next (t.withOut (o ++ bs))

/-- The state's own output is one of those `Appends` speaks of. -/
theorem Appends.out_eq {f : State → Host.Outcome State Fault Refusal} {s t : State} {bs : List Byte}
    (ha : Appends f s t bs) (h : f s = .next t) : t.out = s.out ++ bs := by
  have hs : Host.Outcome.next t = .next (t.withOut (s.out ++ bs)) := h.symm.trans (ha s.out)
  injection hs with hs
  exact congrArg State.out hs

theorem appends_nil {f : State → Host.Outcome State Fault Refusal} {s t : State}
    (hf : ∀ o, f (s.withOut o) = outcomeWithOut o (f s)) (h : f s = .next t) : Appends f s t [] := by
  intro o
  rw [hf, h, List.append_nil]
  rfl

/-- An instruction appends at most one byte: OUT one when the sink is ready, and no other any. -/
theorem exec_appends {i : Instr} {s t : State} (h : exec i s = .next t) :
    ∃ bs : List Byte, bs.length ≤ 1 ∧ Appends (exec i) s t bs := by
  by_cases hi : ∃ c, i = .out c
  · obtain ⟨c, rfl⟩ := hi
    by_cases hs : s.sinkReady = true
    · rw [exec_out_of_sinkReady hs] at h
      injection h with h
      subst h
      exact ⟨[lowByte (s.reg c)], le_rfl, fun o => exec_out_of_sinkReady (s := s.withOut o) hs c⟩
    · refine ⟨[], Nat.zero_le 1, appends_nil (fun o => ?_) h⟩
      rw [exec_out_of_not_sinkReady hs]
      exact exec_out_of_not_sinkReady (s := s.withOut o) hs c
  · exact ⟨[], Nat.zero_le 1, appends_nil (exec_withOut (not_exists.mp hi) s) h⟩

/-! ### The load port, the cycle and the step -/

theorem loadTransaction_withOut (s : State) (o : List Byte) :
    loadTransaction (s.withOut o) = outcomeWithOut o (loadTransaction s) := by
  simp only [loadTransaction, State.withOut_env, State.withOut_heap]
  split
  · rfl
  · split <;> rfl
  · rfl
  · rfl

theorem cycle_appends {s t : State} (h : cycle s = .next t) :
    ∃ bs : List Byte, bs.length ≤ 1 ∧ Appends cycle s t bs := by
  rcases cycle_cases h with ⟨r, hr, rfl⟩ | ⟨i, hi, he⟩
  · refine ⟨[], Nat.zero_le 1, appends_nil (fun o => ?_) h⟩
    simp only [cycle, currentInstr_withOut, hr]
    rfl
  · obtain ⟨bs, hlen, ha⟩ := exec_appends he
    refine ⟨bs, hlen, fun o => ?_⟩
    simp only [cycle, currentInstr_withOut, hi]
    exact ha o

section
variable {s : State} (hr : s.resetAsserted = false)
include hr

theorem step_of_idle (hs : s.status = .idle) : step s = loadTransaction s.tickReset := by
  simp [step, hr, hs]

theorem step_of_running (hs : s.status = .running) : step s = cycle s.tickReset := by
  simp [step, hr, hs]

theorem step_of_terminal (hs : s.status = .halted ∨ ∃ r, s.status = .faulted r) : step s = .next s.tickReset := by
  rcases hs with hs | ⟨r, hs⟩ <;> simp [step, hr, hs]

end

/-- A step that is no reset appends what its cycle does; a held and a stopped machine append nothing. -/
theorem step_appends {s t : State} (hr : s.resetAsserted = false) (h : step s = .next t) :
    ∃ bs : List Byte, bs.length ≤ 1 ∧ Appends step s t bs := by
  rcases step_cases h with ⟨hr', -⟩ | ⟨-, hs, hl⟩ | ⟨-, hs, hc⟩ | ⟨-, hs, rfl⟩
  · rw [hr] at hr'
    contradiction
  · have ha : Appends loadTransaction s.tickReset t [] := appends_nil (loadTransaction_withOut _) hl
    exact ⟨[], Nat.zero_le 1, fun o => (step_of_idle (s := s.withOut o) hr hs).trans (ha o)⟩
  · obtain ⟨bs, hlen, ha⟩ := cycle_appends hc
    exact ⟨bs, hlen, fun o => (step_of_running (s := s.withOut o) hr hs).trans (ha o)⟩
  · refine ⟨[], Nat.zero_le 1, appends_nil (fun o => ?_) h⟩
    rw [h]
    exact step_of_terminal (s := s.withOut o) hr hs

/-- Settles O25: a step that is no reset appends at most one byte whatever the output was (`step_appends`), its own
output included. -/
theorem outputIsAppendedAndNeverRead : Obligations.OutputIsAppendedAndNeverRead := by
  refine ⟨State.outByte_out, fun s t hr h => ?_⟩
  obtain ⟨bs, hlen, ha⟩ := step_appends hr h
  exact ⟨bs, hlen, ha.out_eq h, ha⟩

end Sys2Proof.Machine

/-! ## The decoder and the encoder (30_encoding.md): every word decodes, and no field is lost -/

namespace Sys2Proof

/-! ### The opcode map (R64) -/

/-- All sixteen values of bits 31:28 number an opcode. -/
theorem exists_opcodeNum_eq (v : BitVec 4) : ∃ op, opcodeNum op = v := by
  have hall : ∀ n < 16, (opcodeMap[n]?.map opcodeNum) = some (BitVec.ofNat 4 n) := by decide
  have hv := hall v.toNat v.isLt
  rw [BitVec.ofNat_toNat, BitVec.setWidth_eq, Option.map_eq_some_iff] at hv
  exact hv.imp fun _ h => h.2

/-! ### What the decoder extracts from any word (R63) -/

theorem extractFields_of_ldi {w : Word} (hw : opcodeNum .ldi = fieldOP w) :
    extractFields w = .imm (fieldRI w) (fieldIMM w) := by
  rw [extractFields, ← hw, opcodeAt_opcodeNum]

theorem extractFields_of_ne_ldi {w : Word} {op : Opcode} (hop : op ≠ .ldi) (hw : opcodeNum op = fieldOP w) :
    extractFields w = .std op (fieldA w) (fieldB w) (fieldC w) := by
  rw [extractFields, ← hw, opcodeAt_opcodeNum]
  cases op with
  | ldi => contradiction
  | _ => rfl

/-- A Word has the immediate-load layout, or the standard one under another opcode. -/
theorem extractFields_cases (w : Word) :
    (opcodeNum .ldi = fieldOP w ∧ extractFields w = .imm (fieldRI w) (fieldIMM w)) ∨
    (∃ op, op ≠ .ldi ∧ opcodeNum op = fieldOP w ∧ extractFields w = .std op (fieldA w) (fieldB w) (fieldC w)) := by
  obtain ⟨op, hw⟩ := exists_opcodeNum_eq (fieldOP w)
  by_cases hop : op = .ldi
  · subst hop
    exact .inl ⟨hw, extractFields_of_ldi hw⟩
  · exact .inr ⟨op, hop, hw, extractFields_of_ne_ldi hop hw⟩

/-- A standard group of another opcode than the immediate load's stands for an instruction (R64, R71). -/
theorem exists_instrOfFields_std {op : Opcode} (hop : op ≠ .ldi) (a b c : RegIdx) :
    ∃ i, instrOfFields (.std op a b c) = some i := by
  cases op with
  | ldi => contradiction
  | _ => exact ⟨_, rfl⟩

/-! ### Encoding, then decoding -/

theorem extractFields_encode (i : Instr) : extractFields (encode i) = i.fields := by
  cases i with
  | ldi ri v => exact extractFields_encodeImm ri v
  | _ => exact extractFields_encodeStd (by decide) _ _ _

/-- The fields of an instruction stand for it (R71). -/
theorem instrOfFields_fields (i : Instr) : instrOfFields i.fields = some i := by
  cases i <;> rfl

/-- Settles O1: the word of an instruction carries its fields, and its fields stand for it. -/
theorem encodeThenDecode : Obligations.EncodeThenDecode :=
  fun i _ => decode_of_extractFields (extractFields_encode i) (instrOfFields_fields i)

/-! ### Decoding, then encoding -/

/-- Two Words that agree on a slice agree on each bit of it. -/
theorem getLsbD_eq_of_extractLsb' {v w : Word} {k n : Nat} (h : v.extractLsb' k n = w.extractLsb' k n) {i : Nat}
    (hk : k ≤ i) (hn : i < k + n) : v.getLsbD i = w.getLsbD i := by
  have hb := congrArg (·.getLsbD (i - k)) h
  have hi : i - k < n := by omega
  simpa only [BitVec.getLsbD_extractLsb', hi, decide_true, Bool.true_and, Nat.add_sub_cancel' hk] using hb

theorem extractLsb'_eq_of_toFin {v w : Word} {k : Nat} (h : (v.extractLsb' k 3).toFin = (w.extractLsb' k 3).toFin) :
    v.extractLsb' k 3 = w.extractLsb' k 3 :=
  BitVec.eq_of_toFin_eq h

/-- The fields of the immediate-load layout cover the Word (R62). -/
theorem eq_of_immFields {v w : Word} (hop : fieldOP v = fieldOP w) (hri : fieldRI v = fieldRI w)
    (himm : fieldIMM v = fieldIMM w) : v = w := by
  refine BitVec.eq_of_getLsbD_eq fun i hi => ?_
  rcases (by omega : i < 25 ∨ (25 ≤ i ∧ i < 28) ∨ 28 ≤ i) with h | ⟨h1, h2⟩ | h
  · exact getLsbD_eq_of_extractLsb' himm (Nat.zero_le i) (by omega)
  · exact getLsbD_eq_of_extractLsb' (extractLsb'_eq_of_toFin hri) h1 h2
  · exact getLsbD_eq_of_extractLsb' hop h hi

/-- The fields of the standard layout and its filler, bits 27:9, cover the Word (R61, R66). -/
theorem eq_of_stdFields {v w : Word} (hop : fieldOP v = fieldOP w) (ha : fieldA v = fieldA w)
    (hb : fieldB v = fieldB w) (hc : fieldC v = fieldC w) (hfill : v.extractLsb' 9 19 = w.extractLsb' 9 19) :
    v = w := by
  refine BitVec.eq_of_getLsbD_eq fun i hi => ?_
  rcases (by omega : i < 3 ∨ (3 ≤ i ∧ i < 6) ∨ (6 ≤ i ∧ i < 9) ∨ (9 ≤ i ∧ i < 28) ∨ 28 ≤ i) with
    h | ⟨h1, h2⟩ | ⟨h1, h2⟩ | ⟨h1, h2⟩ | h
  · exact getLsbD_eq_of_extractLsb' (extractLsb'_eq_of_toFin hc) (Nat.zero_le i) (by omega)
  · exact getLsbD_eq_of_extractLsb' (extractLsb'_eq_of_toFin hb) h1 h2
  · exact getLsbD_eq_of_extractLsb' (extractLsb'_eq_of_toFin ha) h1 h2
  · exact getLsbD_eq_of_extractLsb' hfill h1 h2
  · exact getLsbD_eq_of_extractLsb' hop h hi

/-- The encoder writes zero filler (R74). -/
theorem filler_encodeStd (op : Opcode) (a b c : RegIdx) : (encodeStd op a b c).extractLsb' 9 19 = 0#19 :=
  extractLsb'_eq_of_getLsbD fun i hi => by
    simp (disch := omega) only [getLsbD_encodeStd, if_pos, if_neg, BitVec.getLsbD_zero]

/-- Settles O2: each layout's fields come back from its word, and they cover the word, with the filler where there is
any. -/
theorem fieldsRoundTrip : Obligations.FieldsRoundTrip := by
  refine ⟨fun op a b c hop => extractFields_encodeStd hop a b c, extractFields_encodeImm, fun w ri v h => ?_,
    fun w op a b c h hfill => ?_⟩
  · rcases extractFields_cases w with ⟨hop, hw⟩ | ⟨op, -, -, hw⟩
    · rw [hw, Fields.imm.injEq] at h
      obtain ⟨rfl, rfl⟩ := h
      exact eq_of_immFields (by rw [fieldOP_encodeImm, hop]) (fieldRI_encodeImm ..) (fieldIMM_encodeImm ..)
    · simp [hw] at h
  · rcases extractFields_cases w with ⟨-, hw⟩ | ⟨op', -, hop, hw⟩
    · simp [hw] at h
    · rw [hw, Fields.std.injEq] at h
      obtain ⟨rfl, rfl, rfl, rfl⟩ := h
      exact eq_of_stdFields (by rw [fieldOP_encodeStd, hop]) (fieldA_encodeStd ..) (fieldB_encodeStd ..)
        (fieldC_encodeStd ..) (by rw [filler_encodeStd, hfill])

/-! ### Every word, and the bits that do not matter -/

/-- Settles O3: every value of bits 31:28 numbers an opcode, so every Word's fields are an instruction's. -/
theorem everyWordDecodes : Obligations.EveryWordDecodes := by
  refine fun w => ⟨?_, ?_⟩
  · rcases extractFields_cases w with ⟨-, hw⟩ | ⟨op, hop, -, hw⟩
    · exact ⟨_, decode_of_extractFields hw rfl⟩
    · obtain ⟨i, hi⟩ := exists_instrOfFields_std hop (fieldA w) (fieldB w) (fieldC w)
      exact ⟨i, decode_of_extractFields hw hi⟩
  · obtain ⟨op, hop⟩ := exists_opcodeNum_eq (fieldOP w)
    simp only [decoderPorts, ← hop, opcodeAt_opcodeNum, Option.isNone_some]

/-- The register fields of the standard layout lie in bits 8:0. -/
theorem regFields_eq_of_low {v w : Word} (h : v.extractLsb' 0 9 = w.extractLsb' 0 9) :
    fieldA v = fieldA w ∧ fieldB v = fieldB w ∧ fieldC v = fieldC w := by
  have slice : ∀ k, k + 3 ≤ 9 → (v.extractLsb' k 3).toFin = (w.extractLsb' k 3).toFin := fun k hk =>
    congrArg BitVec.toFin (extractLsb'_eq_of_getLsbD fun i hi => by
      rw [getLsbD_eq_of_extractLsb' h (Nat.zero_le _) (by omega), BitVec.getLsbD_extractLsb', decide_eq_true hi,
        Bool.true_and])
  exact ⟨slice 6 (by decide), slice 3 (by decide), slice 0 (by decide)⟩

/-- Settles O4: two words of one standard opcode and one low slice have the same fields; an instruction's own fields are
all that its encoding line's word decodes by. -/
theorem fillerBitsIgnored : Obligations.FillerBitsIgnored := by
  refine ⟨fun v w hop hne hlow => ?_, fun a b c =>
    ⟨Machine.decode_standardWord (op := .halt) rfl nofun rfl,
      Machine.decode_standardWord (op := .alloc) rfl nofun rfl,
      Machine.decode_standardWord (op := .abandon) rfl nofun rfl,
      Machine.decode_standardWord (op := .out) rfl nofun rfl,
      Machine.decode_standardWord (op := .inp) rfl nofun rfl,
      Machine.decode_standardWord (op := .loadprog) rfl nofun rfl⟩⟩
  obtain ⟨ha, hb, hc⟩ := regFields_eq_of_low hlow
  have hf : extractFields v = extractFields w := by
    rcases extractFields_cases v with ⟨hldi, -⟩ | ⟨op, hstd, hv, hfv⟩
    · exact absurd hldi.symm hne
    · rw [hfv, extractFields_of_ne_ldi hstd (hv.trans hop), ha, hb, hc]
  rw [decode, decode, hf]

/-- Settles O5: the decoder evaluates each word. -/
theorem sampleWordsDecode : Obligations.SampleWordsDecode :=
  ⟨rfl, rfl, rfl, rfl, rfl, rfl, rfl, rfl, rfl⟩

/-- Settles O6: the ports are the fields the decoder extracts, and `is_imm` is the test by which it selects them. -/
theorem decoderPortsShowTheFields : Obligations.DecoderPortsShowTheFields := by
  refine fun w => ⟨rfl, ?_⟩
  rcases extractFields_cases w with ⟨hop, hw⟩ | ⟨op, hne, hop, hw⟩
  · have himm : (decoderPorts w).isImm = true := by simp [decoderPorts, ← hop]
    exact ⟨fun _ => hw, fun h => absurd (himm.symm.trans h) nofun⟩
  · have himm : (decoderPorts w).isImm = false := by simp [decoderPorts, ← hop, hne]
    exact ⟨fun h => absurd (himm.symm.trans h) nofun, fun _ => ⟨op, hne, hop, hw⟩⟩

end Sys2Proof

/-! ## The invariant of the machine (20_memory.md sections 2, 4 and 7; 10_state.md sections 3, 6 and 7) -/

namespace Sys2Proof.Machine

/-! ### The part of the invariant that speaks of the heap -/

/-- The heap is canonical, its identifiers are 1 .. k and within `ID_MAX`, and its arrays fit the capacity. -/
structure Heap.Sound (cfg : Config) (h : Heap) : Prop where
  wf : h.wf = true
  keys : h.ids.map (fun e => e.1) = List.range' 1 h.ids.length
  bound : h.ids.length ≤ cfg.idMax.toNat
  capacity : ∀ c, cfg.capacity = some c → h.usedWords ≤ c

theorem machineInv_iff (s : State) : MachineInv s ↔ s.heap.Sound s.cfg ∧ ActiveProduced s ∧
    s.inPos ≤ s.env.input.length ∧ (s.status = .idle → HeldAtReset s) := by
  constructor
  · rintro ⟨hw, ⟨hk, hb⟩, hc, ha, hin, hi⟩
    exact ⟨⟨hw, hk, hb, hc⟩, ha, hin, hi⟩
  · rintro ⟨⟨hw, hk, hb, hc⟩, ha, hin, hi⟩
    exact ⟨hw, ⟨hk, hb⟩, hc, ha, hin, hi⟩

theorem Heap.empty_sound (cfg : Config) : Heap.empty.Sound cfg :=
  ⟨Heap.empty_wf, rfl, Nat.zero_le _, fun c _ => Nat.zero_le c⟩

section
variable {cfg : Config} {h h' : Heap} (hs : h.Sound cfg)
include hs

/-- The identifier table says nothing of array 0. -/
theorem Heap.Sound.setProg {a : Arr} (ha : a.wf = true) : (h.setProg a).Sound cfg :=
  ⟨Heap.setArr_wf (id := 0#32) hs.wf ha, hs.keys, hs.bound, hs.capacity⟩

/-- Replacing a listed entry keeps the identifiers; the capacity is a matter of the words it adds. -/
theorem Heap.Sound.putSlot_listed {id : Word} {sl u : Slot} (hid : id ≠ 0#32)
    (hsl : sl.wf = true) (hu : sparseFind id.toNat h.ids = some u)
    (hc : ∀ c, cfg.capacity = some c → h.usedWords + sl.words ≤ c + u.words) :
    (h.putSlot id sl).Sound cfg ∧ (h.putSlot id sl).ids.length = h.ids.length := by
  have hkeys := keys_insert_listed (v := sl) ((Heap.wf_iff h).mp hs.wf).2.1 hu
  have hlen : (h.putSlot id sl).ids.length = h.ids.length := by simpa using congrArg List.length hkeys
  refine ⟨⟨Heap.putSlot_wf hs.wf hid hsl, ?_, hlen ▸ hs.bound, fun c hcap => ?_⟩, hlen⟩
  · rw [hlen, ← hs.keys]
    exact hkeys
  · have hsum := Heap.usedWords_putSlot (id := id) (sl := sl) hs.wf
    have hle := hc c hcap
    simp only [wordsAt, hu, Option.map_some, Option.getD_some] at hsum
    omega

/-- Listing the next identifier, one more than the table has. -/
theorem Heap.Sound.putSlot_next {id : Word} {sl : Slot} (hid : id.toNat = h.ids.length + 1) (hsl : sl.wf = true)
    (hb : id.toNat ≤ cfg.idMax.toNat) (hc : ∀ c, cfg.capacity = some c → h.usedWords + sl.words ≤ c) :
    (h.putSlot id sl).Sound cfg ∧ (h.putSlot id sl).ids.length = h.ids.length + 1 := by
  have habove : ∀ e ∈ h.ids, e.1 < id.toNat := fun e he => by
    have hmem := List.mem_map_of_mem (f := fun e => e.1) he
    rw [hs.keys, List.mem_range'_1] at hmem
    omega
  have hids : (h.putSlot id sl).ids = h.ids ++ [(id.toNat, sl)] := insert_above habove
  have hne : id ≠ 0#32 := by
    rintro rfl
    simp at hid
  have hlen : (h.putSlot id sl).ids.length = h.ids.length + 1 := by rw [hids, List.length_append, List.length_singleton]
  refine ⟨⟨Heap.putSlot_wf hs.wf hne hsl, ?_, by rw [hlen, ← hid]; exact hb, fun c hcap => ?_⟩, hlen⟩
  · rw [hlen, hids, List.map_append, hs.keys, List.range'_concat]
    simp [hid, Nat.add_comm]
  · have hsum : (h.putSlot id sl).usedWords = h.usedWords + sl.words := by
      simp only [Heap.usedWords, hids, List.map_append, List.sum_append, List.map_singleton, List.sum_singleton]
    exact hsum ▸ hc c hcap

theorem Heap.Sound.memWrite {id off v : Word} (e : h.memWrite id off v = .ok h') :
    h'.Sound cfg ∧ h'.ids.length = h.ids.length := by
  obtain ⟨a, ha, ho, rfl⟩ := Heap.memWrite_ok.mp e
  have hwf : (a.write off v).wf = true := Arr.write_wf (Heap.arr?_wf hs.wf ha) ho
  rcases Heap.arr?_some.mp ha with ⟨rfl, -⟩ | hal
  · exact ⟨hs.setProg hwf, rfl⟩
  · obtain ⟨hid, hu⟩ := Heap.idState_allocated.mp hal
    rw [Heap.setArr, if_neg hid]
    exact hs.putSlot_listed hid hwf hu fun c hcap => Nat.add_le_add_right (hs.capacity c hcap) _

theorem Heap.Sound.abandon {id : Word} (e : h.abandon id = .ok h') :
    h'.Sound cfg ∧ h'.ids.length = h.ids.length := by
  obtain ⟨⟨a, ha⟩, rfl⟩ := Heap.abandon_ok.mp e
  obtain ⟨hid, hu⟩ := Heap.idState_allocated.mp ha
  exact hs.putSlot_listed hid rfl hu fun c hcap => Nat.le_add_right_of_le (hs.capacity c hcap)

/-- ALLOCATE takes a freed identifier, or the one after the last (`firstFree_contiguous`). -/
theorem Heap.Sound.allocate {n id : Word} (e : h.allocate cfg n = .ok (id, h')) :
    h'.Sound cfg ∧ h.ids.length ≤ h'.ids.length := by
  obtain ⟨hid, hfree, hb, hfits, rfl⟩ := Heap.allocate_ok e
  have hc : ∀ c, cfg.capacity = some c → h.usedWords + n.toNat ≤ c := fun c hcap => by
    simpa [Heap.fits, hcap] using hfits
  rcases firstFree_contiguous ((Heap.wf_iff h).mp hs.wf).2.1 hs.keys with ⟨-, hu⟩ | hnext
  · obtain ⟨h1, h2⟩ := hs.putSlot_listed (sl := .allocated (Arr.zeros n)) (u := .freed) hid rfl (hfree ▸ hu) hc
    exact ⟨h1, h2.ge⟩
  · obtain ⟨h1, h2⟩ := hs.putSlot_next (sl := .allocated (Arr.zeros n)) (hfree.trans hnext) rfl hb hc
    exact ⟨h1, h2 ▸ Nat.le_succ _⟩

/-- A present identifier is 0 or listed, so among 1 .. k. -/
theorem Heap.Sound.le_of_present {id : Word} (hp : h.present id = true) : id = 0#32 ∨ id.toNat ≤ h.ids.length := by
  obtain ⟨a, ha⟩ := Option.isSome_iff_exists.mp hp
  refine (Heap.arr?_some.mp ha).imp And.left fun hal => ?_
  have hmem := List.mem_map_of_mem (f := fun e => e.1) (mem_of_sparseFind (Heap.idState_allocated.mp hal).2)
  rw [hs.keys, List.mem_range'_1] at hmem
  omega

end

/-! ### The input port's offer (45_io.md R118 to R120) -/

theorem State.inOffer_byte {s : State} {b : Byte} (h : s.inOffer = .byte b) : s.env.input[s.inPos]? = some b := by
  unfold State.inOffer at h
  split at h
  · split at h
    · injection h with h
      rwa [← h]
    · contradiction
  · contradiction

/-! ### The invariant over an instruction, a transaction of the load port, and a step -/

theorem ActiveProduced.of_le {s t : State} (h : ActiveProduced s) (ha : t.active = s.active)
    (hl : s.heap.ids.length ≤ t.heap.ids.length) : ActiveProduced t := by
  unfold ActiveProduced
  rw [ha]
  exact h.imp_right fun h => h.trans hl

section
variable {s t : State} {i : Instr}

/-- The heap stays sound over an instruction, and no produced identifier is forgotten. -/
theorem Effect.heap_sound (hs : s.heap.Sound s.cfg) (e : Effect s i t) :
    t.heap.Sound t.cfg ∧ s.heap.ids.length ≤ t.heap.ids.length := by
  cases e with
  | stored a b c h e => exact (hs.memWrite e).imp_right Eq.ge
  | allocated a b id h e => exact hs.allocate e
  | abandoned c h e => exact (hs.abandon e).imp_right Eq.ge
  | faulted | wrote | kept | halted | emitted | outHeld | byteRead | endRead | inHeld | jumped => exact ⟨hs, le_rfl⟩

/-- LOADPROG alone sets `active`, to a present identifier (46_control.md R126). -/
theorem Effect.activeProduced (hs : s.heap.Sound s.cfg) (ha : ActiveProduced s) (e : Effect s i t) :
    ActiveProduced t := by
  have hl := (e.heap_sound hs).2
  cases e with
  | jumped b c hp => exact hs.le_of_present hp
  | faulted | wrote | kept | stored | halted | allocated | abandoned | emitted | outHeld | byteRead | endRead
  | inHeld => exact ha.of_le rfl hl

/-- A byte is consumed only where there is one. -/
theorem Effect.inPos_le (h : s.inPos ≤ s.env.input.length) (e : Effect s i t) : t.inPos ≤ t.env.input.length := by
  cases e with
  | byteRead c b hb => exact (List.getElem?_eq_some_iff.mp (State.inOffer_byte hb)).1
  | faulted | wrote | kept | stored | halted | allocated | abandoned | emitted | outHeld | endRead | inHeld | jumped =>
    exact h

theorem Effect.status_ne_idle (hs : s.status ≠ .idle) (e : Effect s i t) : t.status ≠ .idle := by
  rcases e.status_cases with ⟨r, -, rfl⟩ | ⟨-, rfl⟩ | hst
  · nofun
  · nofun
  · rwa [hst]

end

theorem cycle_keeps_inv {s t : State} (hs : s.status ≠ .idle) (hinv : MachineInv s) (h : cycle s = .next t) :
    MachineInv t := by
  obtain ⟨hheap, hact, hin, -⟩ := (machineInv_iff s).mp hinv
  rcases cycle_cases h with ⟨r, -, rfl⟩ | ⟨i, -, hi⟩
  · exact (machineInv_iff _).mpr ⟨hheap, hact, hin, nofun⟩
  · have e := exec_effect hi
    exact (machineInv_iff t).mpr ⟨(e.heap_sound hheap).1, e.activeProduced hheap hact, e.inPos_le hin,
      fun hidle => absurd hidle (e.status_ne_idle hs)⟩

/-- The load port reaches array 0, the input and the start only. -/
theorem loadTransaction_keeps_inv {s t : State} (hs : s.status = .idle) (hinv : MachineInv s)
    (h : loadTransaction s = .next t) : MachineInv t := by
  obtain ⟨hheap, hact, hin, hheld⟩ := (machineInv_iff s).mp hinv
  rcases loadTransaction_cases h with rfl | ⟨w, a, ha, rfl⟩ | ⟨bytes, rfl⟩ | rfl
  · exact hinv
  · have hprog : s.heap.prog.wf = true := ((Heap.wf_iff _).mp hheap.wf).1
    exact (machineInv_iff _).mpr ⟨hheap.setProg (Arr.append_wf hprog ha), hact, hin, hheld⟩
  · obtain ⟨-, -, -, -, hpos, -⟩ := hheld hs
    exact (machineInv_iff _).mpr ⟨hheap, hact, hpos.le.trans (Nat.zero_le _), hheld⟩
  · exact (machineInv_iff _).mpr ⟨hheap, hact, hin, nofun⟩

theorem applyReset_inv (s : State) : MachineInv s.applyReset :=
  (machineInv_iff _).mpr ⟨Heap.empty_sound _, .inl rfl, Nat.zero_le _,
    fun _ => ⟨s.applyReset_reg, rfl, rfl, rfl, rfl, rfl⟩⟩

/-- Settles O39: reset establishes the invariant, the load port and the cycle keep it, and a terminal step changes
nothing it speaks of. -/
theorem stepKeepsInvariant : Obligations.StepKeepsInvariant := by
  intro s t hinv h
  have htick : MachineInv s.tickReset := hinv
  rcases step_cases h with ⟨-, rfl⟩ | ⟨-, hs, hl⟩ | ⟨-, hs, hc⟩ | ⟨-, -, rfl⟩
  · exact applyReset_inv s
  · exact loadTransaction_keeps_inv (s := s.tickReset) hs htick hl
  · exact cycle_keeps_inv (s := s.tickReset) (hs.trans_ne nofun) htick hc
  · exact htick

/-- Settles O40: the machine of `State.reset` is its own reset. -/
theorem resetHasInvariant : Obligations.ResetHasInvariant := applyReset_inv State.reset

end Sys2Proof.Machine

/-! ## Byte output and input (45_io.md): what each offer of the host makes of OUT and IN -/

namespace Sys2Proof.Machine

/-! ### The input port's offer (45_io.md R118 to R120) -/

section
variable {s : State}

theorem State.inOffer_of_not_valid (hv : s.env.inValid.headD true = false) : s.inOffer = .nothing := by
  rw [State.inOffer, hv]
  rfl

theorem State.inOffer_of_getElem? (hv : s.env.inValid.headD true = true) {b : Byte}
    (hb : s.env.input[s.inPos]? = some b) : s.inOffer = .byte b := by
  rw [State.inOffer, if_pos hv, hb]

theorem State.inOffer_of_length_le (hv : s.env.inValid.headD true = true) (hl : s.env.input.length ≤ s.inPos) :
    s.inOffer = .endOfInput := by
  rw [State.inOffer, if_pos hv, List.getElem?_eq_none hl]

theorem exec_inp_of_nothing (h : s.inOffer = .nothing) (c : RegIdx) : exec (.inp c) s = .next s.tickIn := by
  rw [exec, execInp, h]

theorem exec_inp_of_endOfInput (h : s.inOffer = .endOfInput) (c : RegIdx) :
    exec (.inp c) s = .next (s.tickIn.setReg c allOnes).advance := by
  rw [exec, execInp, h]

theorem exec_inp_of_byte {b : Byte} (h : s.inOffer = .byte b) (c : RegIdx) :
    exec (.inp c) s = .next (s.tickIn.takeByte.setReg c (byteOperand b)).advance := by
  rw [exec, execInp, h]

end

/-- Settles O22: with a ready sink OUT appends the low byte; the past transaction is all else that moves. -/
theorem outEmitsTheLowByte : Obligations.OutEmitsTheLowByte := by
  refine fun c s => ⟨fun a b => decode_standardWord (op := .out) rfl nofun rfl, fun hr =>
    ⟨_, _, exec_out_of_sinkReady hr c, rfl, ?_, rfl, fun _ => rfl, sameMemory_of_heap_eq rfl, ⟨rfl, rfl⟩, rfl, rfl,
      rfl⟩⟩
  rw [lowByte, BitVec.extractLsb'_toNat, Nat.shiftRight_zero]

/-- Settles O23: IN is a register write, of the offered byte or of all ones at the end of input. -/
theorem inReadsOneByte : Obligations.InReadsOneByte := by
  refine fun c s => ⟨fun a b => decode_standardWord (op := .inp) rfl nofun rfl, fun hv => ?_⟩
  have other : ∀ (u : State) (v : Word), u.x = s.x → SameRegsBut c s (u.setReg c v).advance := fun u v hu r hr => by
    rw [State.advance_reg, State.setReg_reg_other _ _ hr, State.reg, State.reg, hu]
  rcases Nat.lt_or_ge s.inPos s.env.input.length with hlt | hge
  · have hb := List.getElem?_eq_getElem hlt
    refine ⟨_, exec_inp_of_byte (State.inOffer_of_getElem? hv hb) c, fun b hb' => ⟨?_, rfl⟩,
      fun hle => absurd hle (not_le.mpr hlt), rfl, other _ _ rfl, sameMemory_of_heap_eq rfl, ⟨rfl, rfl⟩, rfl, rfl, rfl⟩
    rw [State.advance_reg, State.setReg_reg_same, byteOperand, BitVec.toNat_setWidth_of_le (by decide)]
    exact congrArg BitVec.toNat (Option.some.inj (hb.symm.trans hb'))
  · refine ⟨_, exec_inp_of_endOfInput (State.inOffer_of_length_le hv hge) c, fun b hb => ?_, fun _ => ⟨?_, rfl⟩, rfl,
      other _ _ rfl, sameMemory_of_heap_eq rfl, ⟨rfl, rfl⟩, rfl, rfl, rfl⟩
    · rw [List.getElem?_eq_none hge] at hb
      contradiction
    · rw [State.advance_reg, State.setReg_reg_same]

/-- Settles O24: a held port's instruction lets the host's transaction pass and does nothing else. -/
theorem heldPortChangesNothing : Obligations.HeldPortChangesNothing :=
  fun c _ => ⟨fun hv => exec_inp_of_nothing (State.inOffer_of_not_valid hv) c,
    fun hr => exec_out_of_not_sinkReady (Bool.eq_false_iff.mp hr) c⟩

/-- At the end of input no instruction consumes a byte. -/
theorem Effect.inPos_of_exhausted {i : Instr} {s t : State} (h : s.env.input.length ≤ s.inPos) (e : Effect s i t) :
    t.inPos = s.inPos := by
  cases e with
  | byteRead c b hb =>
    have hsome := State.inOffer_byte hb
    rw [List.getElem?_eq_none h] at hsome
    contradiction
  | faulted | wrote | kept | stored | halted | allocated | abandoned | emitted | outHeld | endRead | inHeld | jumped =>
    rfl

/-- No instruction touches the input sequence or the parameters of the build (00_scope.md R3, 10_state.md R22). -/
theorem Effect.input_cfg {i : Instr} {s t : State} (e : Effect s i t) : t.env.input = s.env.input ∧ t.cfg = s.cfg := by
  cases e <;> exact ⟨rfl, rfl⟩

theorem cycle_inPos_of_exhausted {s t : State} (h : s.env.input.length ≤ s.inPos) (hc : cycle s = .next t) :
    t.inPos = s.inPos := by
  rcases cycle_cases hc with ⟨r, -, rfl⟩ | ⟨i, -, hi⟩
  · rfl
  · exact (exec_effect hi).inPos_of_exhausted h

theorem cycle_input_cfg {s t : State} (hc : cycle s = .next t) : t.env.input = s.env.input ∧ t.cfg = s.cfg := by
  rcases cycle_cases hc with ⟨r, -, rfl⟩ | ⟨i, -, hi⟩
  · exact ⟨rfl, rfl⟩
  · exact (exec_effect hi).input_cfg

theorem cycle_status_ne_idle {s t : State} (hs : s.status ≠ .idle) (hc : cycle s = .next t) : t.status ≠ .idle := by
  rcases cycle_cases hc with ⟨r, -, rfl⟩ | ⟨i, -, hi⟩
  · nofun
  · exact (exec_effect hi).status_ne_idle hs

/-- A step of a started machine without reset: one cycle, or nothing but the past sample of the reset input. -/
theorem step_cases_of_started {s t : State} (hr : s.resetAsserted = false) (hs : s.status ≠ .idle)
    (h : step s = .next t) : cycle s.tickReset = .next t ∨ t = s.tickReset := by
  rcases step_cases h with ⟨hr', -⟩ | ⟨-, hidle, -⟩ | ⟨-, -, hc⟩ | ⟨-, -, ht⟩
  · rw [hr] at hr'
    contradiction
  · contradiction
  · exact .inl hc
  · exact .inr ht

/-- Settles O26: a started machine takes bytes by IN only, and at the end of input IN takes none. -/
theorem endOfInputIsSticky : Obligations.EndOfInputIsSticky := by
  intro s t hr hs hend h
  rcases step_cases_of_started hr hs h with hc | rfl
  · exact ⟨cycle_inPos_of_exhausted (s := s.tickReset) hend hc, (cycle_input_cfg hc).1,
      cycle_status_ne_idle (s := s.tickReset) hs hc⟩
  · exact ⟨rfl, rfl, hs⟩

end Sys2Proof.Machine

/-! ## Histories a program cannot tell apart (20_memory.md section 2): freed, and never produced -/

namespace Sys2Proof.Machine

/-! ### What the table says of the present arrays -/

/-- The array of an entry of the identifier table, if it is allocated. -/
def Slot.arr? : Slot → Option Arr
  | .allocated a => some a
  | .freed => none

/-- The array the table lists under `k`, if it lists one as allocated. -/
def arrAt (k : Nat) (l : List (Nat × Slot)) : Option Arr := (sparseFind k l).bind Slot.arr?

theorem arrAt_eq_some {k : Nat} {l : List (Nat × Slot)} {a : Arr} :
    arrAt k l = some a ↔ sparseFind k l = some (.allocated a) := by
  rw [arrAt, Option.bind_eq_some_iff]
  constructor
  · rintro ⟨sl, hf, hsl⟩
    cases sl with
    | allocated b =>
      obtain rfl : b = a := Option.some.inj hsl
      exact hf
    | freed => contradiction
  · exact fun hf => ⟨_, hf, rfl⟩

theorem Heap.arr?_of_ne {h : Heap} {id : Word} (hid : id ≠ 0#32) : h.arr? id = arrAt id.toNat h.ids := by
  refine Option.ext fun a => ?_
  rw [arrAt_eq_some, Heap.arr?_some, Heap.idState_allocated]
  simp [hid]

theorem wordsAt_eq_arrAt (k : Nat) (l : List (Nat × Slot)) :
    wordsAt k l = ((arrAt k l).map fun a => a.len.toNat).getD 0 := by
  rw [wordsAt, arrAt]
  cases sparseFind k l with
  | none => rfl
  | some sl => cases sl <;> rfl

/-- The words of a rising table, key by key. -/
theorem words_eq_sum_wordsAt {l : List (Nat × Slot)} {n : Nat} (hs : sparseSorted l = true) (hn : ∀ e ∈ l, e.1 < n) :
    (l.map (fun e => e.2.words)).sum = ∑ k ∈ Finset.range n, wordsAt k l := by
  induction l with
  | nil => simp [wordsAt]
  | cons e l ih =>
    obtain ⟨j, sl⟩ := e
    simp only [sparseSorted, Bool.and_eq_true, List.all_eq_true, decide_eq_true_eq] at hs
    have hnot : wordsAt j l = 0 := by
      rw [wordsAt, Option.eq_none_iff_forall_ne_some.mpr fun u hu => (hs.1 _ (mem_of_sparseFind hu)).false]
      rfl
    have hcons : ∀ k, wordsAt k ((j, sl) :: l) = (if j = k then sl.words else 0) + wordsAt k l := by
      intro k
      rw [wordsAt, sparseFind_cons]
      split
      · subst k
        simp [hnot]
      · simp [wordsAt]
    rw [List.map_cons, List.sum_cons, ih hs.2 fun e he => hn e (List.mem_cons_of_mem _ he),
      Finset.sum_congr rfl fun k _ => hcons k, Finset.sum_add_distrib, Finset.sum_ite_eq,
      if_pos (Finset.mem_range.mpr (hn _ List.mem_cons_self))]

/-- The scan depends on what is listed as allocated only (20_memory.md R38). -/
theorem firstFree_congr {l l' : List (Nat × Slot)} (hs : sparseSorted l = true) (hs' : sparseSorted l' = true)
    (h : ∀ k, arrAt k l' = arrAt k l) (k : Nat) : firstFree k l' = firstFree k l := by
  have notLt : ∀ {m m' : List (Nat × Slot)}, sparseSorted m = true → sparseSorted m' = true →
      (∀ k, arrAt k m' = arrAt k m) → ¬ firstFree k m < firstFree k m' := by
    intro m m' hm hm' h hlt
    obtain ⟨a, ha⟩ := (firstFree_spec hm').2 _ (le_firstFree k m) hlt
    exact (firstFree_spec hm).1 a (arrAt_eq_some.mp ((h _).symm.trans (arrAt_eq_some.mpr ha)))
  exact le_antisymm (not_lt.mp (notLt hs hs' h)) (not_lt.mp (notLt hs' hs fun k => (h k).symm))

/-! ### Heaps with the same present arrays -/

/-- Every identifier denotes the same array in both, array 0 included. -/
def Heap.SameArrays (h h' : Heap) : Prop := ∀ id : Word, h'.arr? id = h.arr? id

section
variable {h h' : Heap} (ha : h.SameArrays h')
include ha

theorem Heap.SameArrays.prog : h'.prog = h.prog := Option.some.inj (ha 0#32)

theorem Heap.SameArrays.present (id : Word) : h'.present id = h.present id := by
  rw [Heap.present, Heap.present, ha]

theorem Heap.SameArrays.checked (id off : Word) : h'.checked id off = h.checked id off := by
  rw [Heap.checked, Heap.checked, ha]

theorem Heap.SameArrays.memRead (id off : Word) : h'.memRead id off = h.memRead id off := by
  rw [Heap.memRead, Heap.memRead, ha.checked]

theorem Heap.SameArrays.fetch (id off : Word) : h'.fetch id off = h.fetch id off := by
  rw [Heap.fetch, Heap.fetch, ha]

theorem Heap.SameArrays.setProg (a : Arr) : (h.setProg a).SameArrays (h'.setProg a) := by
  intro q
  by_cases hq : q = 0#32
  · subst hq
    rfl
  · rw [Heap.arr?_of_ne hq, Heap.arr?_of_ne hq, Heap.setProg_ids, Heap.setProg_ids, ← Heap.arr?_of_ne hq,
      ← Heap.arr?_of_ne hq, ha]

theorem Heap.SameArrays.putSlot (id : Word) (sl : Slot) : (h.putSlot id sl).SameArrays (h'.putSlot id sl) := by
  intro q
  by_cases hq : q = 0#32
  · subst hq
    exact ha 0#32
  · have hold := ha q
    rw [Heap.arr?_of_ne hq, Heap.arr?_of_ne hq, arrAt, arrAt] at hold ⊢
    rw [Heap.putSlot_ids, Heap.putSlot_ids, sparseFind_insert, sparseFind_insert]
    split
    · rfl
    · exact hold

theorem Heap.SameArrays.setArr (id : Word) (a : Arr) : (h.setArr id a).SameArrays (h'.setArr id a) := by
  rw [Heap.setArr, Heap.setArr]
  split
  · exact ha.setProg a
  · exact ha.putSlot id _

end

/-! ### Two canonical heaps with the same present arrays: the allocator answers the same -/

/-- The canonical form bounds the identifiers of the table. -/
theorem Heap.wf_key {h : Heap} (hw : h.wf = true) {e : Nat × Slot} (he : e ∈ h.ids) : 0 < e.1 ∧ e.1 < 2 ^ 32 := by
  have hall := List.all_eq_true.mp ((Heap.wf_iff h).mp hw).2.2 e he
  simp only [Bool.and_eq_true, decide_eq_true_eq] at hall
  exact hall.1

theorem Heap.arrAt_eq_none {h : Heap} (hw : h.wf = true) {k : Nat} (hk : ¬ (0 < k ∧ k < 2 ^ 32)) :
    arrAt k h.ids = none :=
  Option.eq_none_iff_forall_ne_some.mpr fun _ ha =>
    hk (Heap.wf_key hw (mem_of_sparseFind (arrAt_eq_some.mp ha)))

section
variable {h h' : Heap} (hw : h.wf = true) (hw' : h'.wf = true) (ha : h.SameArrays h')
include hw hw' ha

theorem Heap.SameArrays.arrAt (k : Nat) : arrAt k h'.ids = arrAt k h.ids := by
  by_cases hk : 0 < k ∧ k < 2 ^ 32
  · have hid : (BitVec.ofNat 32 k).toNat = k := by rw [BitVec.toNat_ofNat, Nat.mod_eq_of_lt hk.2]
    have hne : BitVec.ofNat 32 k ≠ 0#32 := fun h0 => by simp [h0] at hid; omega
    have hsame := ha (BitVec.ofNat 32 k)
    rwa [Heap.arr?_of_ne hne, Heap.arr?_of_ne hne, hid] at hsame
  · rw [Heap.arrAt_eq_none hw hk, Heap.arrAt_eq_none hw' hk]

theorem Heap.SameArrays.usedWords : h'.usedWords = h.usedWords := by
  rw [Heap.usedWords, Heap.usedWords,
    words_eq_sum_wordsAt ((Heap.wf_iff h).mp hw).2.1 fun e he => (Heap.wf_key hw he).2,
    words_eq_sum_wordsAt ((Heap.wf_iff h').mp hw').2.1 fun e he => (Heap.wf_key hw' he).2]
  refine Finset.sum_congr rfl fun k _ => ?_
  rw [wordsAt_eq_arrAt, wordsAt_eq_arrAt, ha.arrAt hw hw']

theorem Heap.SameArrays.firstFree : firstFree 1 h'.ids = firstFree 1 h.ids :=
  firstFree_congr ((Heap.wf_iff h).mp hw).2.1 ((Heap.wf_iff h').mp hw').2.1 (ha.arrAt hw hw') 1

end

/-! ### Answers that agree -/

/-- Both raise the same, or both answer, with results that are alike. -/
inductive AnswersAlike {α : Type} (alike : α → α → Prop) : Except Reason α → Except Reason α → Prop where
  | ok {a a' : α} (h : alike a a') : AnswersAlike alike (.ok a) (.ok a')
  | error (r : Reason) : AnswersAlike alike (.error r) (.error r)

section
variable {h h' : Heap} (ha : h.SameArrays h')
include ha

theorem Heap.SameArrays.memWrite (id off v : Word) :
    AnswersAlike Heap.SameArrays (h.memWrite id off v) (h'.memWrite id off v) := by
  rw [Heap.memWrite, Heap.memWrite, ha.checked]
  split
  · exact .error _
  · exact .ok (ha.setArr id _)

theorem Heap.SameArrays.allocate (hw : h.wf = true) (hw' : h'.wf = true) (cfg : Config) (n : Word) :
    AnswersAlike (fun p p' => p'.1 = p.1 ∧ p.2.SameArrays p'.2) (h.allocate cfg n) (h'.allocate cfg n) := by
  have hfits : h'.fits cfg n = h.fits cfg n := by rw [Heap.fits, Heap.fits, ha.usedWords hw hw']
  simp only [Heap.allocate, ha.firstFree hw hw', hfits]
  split
  · exact .error _
  · split
    · exact .ok ⟨rfl, ha.putSlot _ _⟩
    · exact .error _

end

theorem Heap.abandon_of_absent {h : Heap} {id : Word} (hp : h.arr? id = none) :
    h.abandon id = .error .invalidArray := by
  rcases Heap.arr?_none.mp hp with hs | hs <;> simp only [Heap.abandon, hs]

theorem Heap.abandon_of_arr? {h : Heap} {id : Word} {a : Arr} (hid : id ≠ 0#32) (hp : h.arr? id = some a) :
    h.abandon id = .ok (h.putSlot id .freed) := by
  rcases Heap.arr?_some.mp hp with ⟨h0, -⟩ | hs
  · contradiction
  · exact Heap.abandon_ok.mpr ⟨⟨a, hs⟩, rfl⟩

theorem Heap.SameArrays.abandon {h h' : Heap} (ha : h.SameArrays h') (id : Word) :
    AnswersAlike Heap.SameArrays (h.abandon id) (h'.abandon id) := by
  by_cases hid : id = 0#32
  · subst hid
    exact .error _
  · cases hp : h.arr? id with
    | none =>
      rw [Heap.abandon_of_absent hp, Heap.abandon_of_absent ((ha id).trans hp)]
      exact .error _
    | some a =>
      rw [Heap.abandon_of_arr? hid hp, Heap.abandon_of_arr? hid ((ha id).trans hp)]
      exact .ok (ha.putSlot id .freed)

/-! ### States that differ in nothing else -/

/-- The same state over a heap with the same arrays. -/
theorem Heap.SameArrays.sameButHistory {t t' : State} {h h' : Heap} (ha : h.SameArrays h')
    (hh : t.heap = h := by rfl) (ht : t' = t.setHeap h' := by rfl) : SameButHistory t t' := by
  subst hh ht
  exact ⟨rfl, rfl, rfl, rfl, rfl, rfl, rfl, rfl, ha.prog, ha⟩

theorem SameButHistory.eq_setHeap {s s' : State} (h : SameButHistory s s') :
    s' = s.setHeap s'.heap ∧ s.heap.SameArrays s'.heap := by
  obtain ⟨hx, hpc, hact, hst, hin, hout, hcfg, henv, -, harr⟩ := h
  refine ⟨?_, harr⟩
  cases s'
  simp only [State.setHeap, State.mk.injEq] at *
  exact ⟨hx, hpc, hact, hst, trivial, hin, hout, hcfg, henv⟩

/-- The same stop, or next states that differ in nothing but the history. -/
inductive OutcomesAlike : Host.Outcome State Fault Refusal → Host.Outcome State Fault Refusal → Prop where
  | next {t t' : State} (h : SameButHistory t t') : OutcomesAlike (.next t) (.next t')
  | fault (r : Fault) : OutcomesAlike (.fault r) (.fault r)
  | refused (r : Refusal) : OutcomesAlike (.refused r) (.refused r)

theorem step_of_reset {s : State} (hr : s.resetAsserted = true) : step s = .next s.applyReset := by
  rw [step, if_pos hr]

theorem SameButHistory.refl (t : State) : SameButHistory t t :=
  Heap.SameArrays.sameButHistory (h := t.heap) fun _ => rfl

section
variable {s : State} {h' : Heap} (ha : s.heap.SameArrays h')
include ha

/-- The fault is taken in states that are alike, and the answers are. -/
theorem conclude_alike {e e' : Except Reason State} (he : AnswersAlike SameButHistory e e') :
    OutcomesAlike (conclude s e) (conclude (s.setHeap h') e') := by
  cases he with
  | ok h => exact .next h
  | error r => exact .next ha.sameButHistory

theorem dividingOp_alike (f : Word → Word → Word) (a b c : RegIdx) :
    OutcomesAlike (dividingOp f a b c s) (dividingOp f a b c (s.setHeap h')) := by
  by_cases hc : s.reg c = 0#32
  · rw [dividingOp_of_eq hc, dividingOp_of_eq (s := s.setHeap h') hc]
    exact .next ha.sameButHistory
  · rw [dividingOp_of_ne hc, dividingOp_of_ne (s := s.setHeap h') hc]
    exact .next ha.sameButHistory

/-- An instruction over another history of the heap: its reads are the same, and its writes leave heaps alike. -/
theorem exec_alike (hw : s.heap.wf = true) (hw' : h'.wf = true) (i : Instr) :
    OutcomesAlike (exec i s) (exec i (s.setHeap h')) := by
  cases i with
  | add a b c | mul a b c | nand a b c | sub a b c | halt | ldi a v => exact .next ha.sameButHistory
  | cmov a b c =>
    by_cases hc : s.reg c = 0#32
    · rw [exec_cmov_of_eq hc, exec_cmov_of_eq (s := s.setHeap h') hc]
      exact .next ha.sameButHistory
    · rw [exec_cmov_of_ne hc, exec_cmov_of_ne (s := s.setHeap h') hc]
      exact .next ha.sameButHistory
  | out c =>
    by_cases hr : s.sinkReady = true
    · rw [exec_out_of_sinkReady hr, exec_out_of_sinkReady (s := s.setHeap h') hr]
      exact .next ha.sameButHistory
    · rw [exec_out_of_not_sinkReady hr, exec_out_of_not_sinkReady (s := s.setHeap h') hr]
      exact .next ha.sameButHistory
  | inp c =>
    cases ho : s.inOffer with
    | nothing =>
      rw [exec_inp_of_nothing ho, exec_inp_of_nothing (s := s.setHeap h') ho]
      exact .next ha.sameButHistory
    | endOfInput =>
      rw [exec_inp_of_endOfInput ho, exec_inp_of_endOfInput (s := s.setHeap h') ho]
      exact .next ha.sameButHistory
    | byte b =>
      rw [exec_inp_of_byte ho, exec_inp_of_byte (s := s.setHeap h') ho]
      exact .next ha.sameButHistory
  | div a b c | mod a b c =>
    rw [exec, exec]
    exact dividingOp_alike ha _ a b c
  | loadprog b c =>
    refine conclude_alike ha ?_
    simp only [State.setHeap_reg, State.setHeap_heap, ha.present]
    split
    · exact .ok ha.sameButHistory
    · exact .error _
  | aidx a b c =>
    refine conclude_alike ha ?_
    simp only [effectiveAddress, State.setHeap_reg, State.setHeap_heap, ha.memRead]
    split
    · exact .error _
    · exact .ok ha.sameButHistory
  | amend a b c =>
    refine conclude_alike ha ?_
    have hm := ha.memWrite (s.reg a) (s.reg b) (s.reg c)
    simp only [effectiveAddress, State.setHeap_reg, State.setHeap_heap]
    generalize s.heap.memWrite _ _ _ = e, h'.memWrite _ _ _ = e' at hm ⊢
    cases hm with
    | ok hk => exact .ok hk.sameButHistory
    | error r => exact .error r
  | alloc a b =>
    refine conclude_alike ha ?_
    have hm := ha.allocate hw hw' s.cfg (s.reg b)
    simp only [State.setHeap_reg, State.setHeap_heap, State.setHeap_cfg]
    generalize s.heap.allocate _ _ = e, h'.allocate _ _ = e' at hm ⊢
    cases hm with
    | @ok p p' hk =>
      obtain ⟨hid, hk⟩ := hk
      simp only [hid]
      exact .ok hk.sameButHistory
    | error r => exact .error r
  | abandon c =>
    refine conclude_alike ha ?_
    have hm := ha.abandon (s.reg c)
    simp only [State.setHeap_reg, State.setHeap_heap]
    generalize s.heap.abandon _ = e, h'.abandon _ = e' at hm ⊢
    cases hm with
    | ok hk => exact .ok hk.sameButHistory
    | error r => exact .error r

theorem cycle_alike (hw : s.heap.wf = true) (hw' : h'.wf = true) :
    OutcomesAlike (cycle s) (cycle (s.setHeap h')) := by
  have hcur : currentInstr (s.setHeap h') = currentInstr s := by
    simp only [currentInstr, State.setHeap_heap, State.setHeap_active, State.setHeap_pc, ha.fetch]
  rw [cycle, cycle, hcur]
  split
  · exact .next ha.sameButHistory
  · exact exec_alike ha hw hw' _

theorem loadTransaction_alike : OutcomesAlike (loadTransaction s) (loadTransaction (s.setHeap h')) := by
  simp only [loadTransaction, State.setHeap_env, State.setHeap_heap, ha.prog]
  split
  · exact .next ha.sameButHistory
  · split
    · exact .next (ha.setProg _).sameButHistory
    · exact .fault _
  · exact .next ha.sameButHistory
  · exact .next ha.sameButHistory

theorem step_alike (hw : s.heap.wf = true) (hw' : h'.wf = true) : OutcomesAlike (step s) (step (s.setHeap h')) := by
  have htick : s.tickReset.heap.SameArrays h' := ha
  cases hr : s.resetAsserted with
  | true =>
    rw [step_of_reset hr, step_of_reset (s := s.setHeap h') hr]
    exact .next (SameButHistory.refl s.applyReset)
  | false =>
    cases hs : s.status with
    | idle =>
      rw [step_of_idle hr hs, step_of_idle (s := s.setHeap h') hr hs]
      exact loadTransaction_alike htick
    | running =>
      rw [step_of_running hr hs, step_of_running (s := s.setHeap h') hr hs]
      exact cycle_alike htick hw hw'
    | halted =>
      rw [step_of_terminal hr (.inl hs), step_of_terminal (s := s.setHeap h') hr (.inl hs)]
      exact .next htick.sameButHistory
    | faulted r =>
      rw [step_of_terminal hr (.inr ⟨r, hs⟩), step_of_terminal (s := s.setHeap h') hr (.inr ⟨r, hs⟩)]
      exact .next htick.sameButHistory

end

/-- Settles O41: a step depends on the heap through its present arrays only, the allocator's scan and its count of used
words included (`firstFree_congr`, `Heap.SameArrays.usedWords`). -/
theorem freedIsLikeNeverAllocated : Obligations.FreedIsLikeNeverAllocated := by
  intro s s' t hw hw' hss h
  obtain ⟨heq, ha⟩ := hss.eq_setHeap
  have hstep := step_alike ha hw hw'
  rw [← heq, h] at hstep
  generalize hu : step s' = u at hstep
  cases hstep with
  | next htt => exact ⟨_, rfl, htt⟩

end Sys2Proof.Machine

/-! ## Memory (20_memory.md): what is stored is read back, a fetch is a read, and the heap's command port -/

namespace Sys2Proof.Machine

/-! ### A read after a store, and a fetch against a read (R36, R37, R40) -/

theorem Heap.memRead_of_memWrite {h h' : Heap} {id off v : Word} (e : h.memWrite id off v = .ok h') :
    h'.memRead id off = .ok v := by
  have hp : h'.peek id off = some v := (Heap.memWrite_peek e id off).trans (if_pos rfl)
  exact Heap.memRead_ok.mpr (Heap.peek_some.mp hp)

/-- Settles O16: the heap the AMEND leaves answers the stored Word to the AIDX's read. -/
theorem storeThenLoadReturnsValue : Obligations.StoreThenLoadReturnsValue := by
  intro a b c d s arr ha ho
  obtain ⟨h, e⟩ : ∃ h, s.heap.memWrite (s.reg a) (s.reg b) (s.reg c) = .ok h :=
    ⟨_, Heap.memWrite_ok.mpr ⟨arr, ha, ho, rfl⟩⟩
  refine ⟨_, _, exec_amend_of_memWrite e, exec_aidx_of_memRead (Heap.memRead_of_memWrite e) d, ?_⟩
  rw [State.advance_reg, State.setReg_reg_same]

theorem Heap.fetch_of_absent {h : Heap} {id : Word} (ha : h.arr? id = none) (off : Word) :
    h.fetch id off = .error .invalidArray := by
  simp only [Heap.fetch, ha]

theorem Heap.fetch_of_len_le {h : Heap} {id off : Word} {a : Arr} (ha : h.arr? id = some a) (ho : a.len ≤ off) :
    h.fetch id off = .error .programCounterOutOfBounds := by
  simp only [Heap.fetch, ha, if_pos ho]

/-- Settles O18: a fetch and a read answer by the same checks, each with its own faults. -/
theorem fetchAgreesWithRead : Obligations.FetchAgreesWithRead := by
  refine fun h id off => ⟨fun w => Heap.fetch_ok.trans Heap.memRead_ok.symm, ?_⟩
  rcases h.checked_cases id off with ⟨ha, hc⟩ | ⟨a, ha, ho, hc⟩ | ⟨a, ha, ho, -⟩
  · simp [Heap.fetch_of_absent ha, Heap.memRead_of_checked_error hc]
  · simp [Heap.fetch_of_len_le ha ho, Heap.memRead_of_checked_error hc]
  · simp [Heap.fetch_ok.mpr ⟨a, ha, ho, rfl⟩, Heap.memRead_ok.mpr ⟨a, ha, ho, rfl⟩]

/-! ### The command port (R49) -/

theorem Reason.code_ne_zero (r : Reason) : r.code ≠ 0#3 := by
  cases r <;> decide

/-- A response with a fault leaves the heap as it was, and the fault code is 0 exactly when there is none. -/
theorem respond_atomic (h : Heap) (e : Except Reason (Option Word × Heap)) :
    ((respond h e).1.ok = false → (respond h e).2 = h) ∧
      ((respond h e).1.ok = true ↔ (respond h e).1.fault = 0#3) := by
  cases e with
  | ok p => exact ⟨nofun, fun _ => rfl, fun _ => rfl⟩
  | error r => exact ⟨fun _ => rfl, nofun, fun h0 => absurd h0 r.code_ne_zero⟩

theorem respond_read (h : Heap) (e : Except Reason Word) : (respond h (e.map fun v => (some v, h))).2 = h := by
  cases e <;> rfl

/-- A command whose answer keeps a property of the heap keeps it through the port, where a fault answers the heap
itself. -/
theorem respond_keeps {α : Type} {h : Heap} {e : Except Reason α} {f : α → Option Word × Heap} {P : Heap → Prop}
    (hh : P h) (hf : ∀ x, e = .ok x → P (f x).2) : P (respond h (e.map f)).2 := by
  cases e with
  | ok x => exact hf x rfl
  | error r => exact hh

theorem Heap.command_wf {h : Heap} (hw : h.wf = true) (cfg : Config) (cmd : HeapCommand) :
    (h.command cfg cmd).2.wf = true := by
  cases cmd with
  | read id off | fetch id off => exact respond_keeps (P := fun k => k.wf = true) hw fun _ _ => hw
  | write id off v => exact respond_keeps (P := fun k => k.wf = true) hw fun _ e => Heap.memWrite_wf hw e
  | allocate n => exact respond_keeps (P := fun k => k.wf = true) hw fun _ e => Heap.allocate_wf hw e
  | abandon id => exact respond_keeps (P := fun k => k.wf = true) hw fun _ e => Heap.abandon_wf hw e

/-- Settles O48: every command is a `respond`, the two reads answer the heap itself, and each operation keeps the
canonical form. -/
theorem heapCommandsAreAtomic : Obligations.HeapCommandsAreAtomic := by
  intro h cfg cmd
  obtain ⟨e, he⟩ : ∃ e, h.command cfg cmd = respond h e := by cases cmd <;> exact ⟨_, rfl⟩
  obtain ⟨hfault, hok⟩ := respond_atomic h e
  rw [← he] at hfault hok
  exact ⟨hfault, hok, fun id off => ⟨respond_read h _, respond_read h _⟩, fun hw => Heap.command_wf hw cfg cmd⟩

end Sys2Proof.Machine

/-! ## Allocation and abandonment (44_allocation.md): ALLOC and ABANDON -/

namespace Sys2Proof.Machine

/-! ### The smallest free identifier (20_memory.md R38) -/

theorem Heap.isAllocated_iff {h : Heap} {id : Word} : h.isAllocated id = true ↔ ∃ a, h.idState id = .allocated a := by
  rw [Heap.isAllocated]
  cases h.idState id <;> simp

section
variable {h : Heap} (hw : h.wf = true) {q : Word}
include hw

theorem Heap.isAllocated_of_lt_firstFree (hq : q ≠ 0#32) (hlt : q.toNat < firstFree 1 h.ids) :
    h.isAllocated q = true := by
  obtain ⟨a, ha⟩ := (firstFree_spec ((Heap.wf_iff h).mp hw).2.1).2 q.toNat (toNat_pos hq) hlt
  exact Heap.isAllocated_iff.mpr ⟨a, Heap.idState_allocated.mpr ⟨hq, ha⟩⟩

theorem Heap.isAllocated_of_eq_firstFree (heq : q.toNat = firstFree 1 h.ids) : h.isAllocated q = false := by
  refine Bool.eq_false_iff.mpr fun hal => ?_
  obtain ⟨a, ha⟩ := Heap.isAllocated_iff.mp hal
  exact (firstFree_spec ((Heap.wf_iff h).mp hw).2.1).1 a (heq ▸ (Heap.idState_allocated.mp ha).2)

/-- The scan's number is an identifier where some identifier is as large. -/
theorem Heap.exists_eq_firstFree (hle : firstFree 1 h.ids ≤ q.toNat) :
    ∃ p : Word, p ≠ 0#32 ∧ p.toNat = firstFree 1 h.ids ∧ h.isAllocated p = false := by
  have hp : (BitVec.ofNat 32 (firstFree 1 h.ids)).toNat = firstFree 1 h.ids := by
    rw [BitVec.toNat_ofNat, Nat.mod_eq_of_lt (hle.trans_lt q.isLt)]
  refine ⟨_, fun h0 => ?_, hp, Heap.isAllocated_of_eq_firstFree hw hp⟩
  have hpos := le_firstFree 1 h.ids
  rw [h0, BitVec.toNat_ofNat] at hp
  omega

end

section
variable {s : State} (hw : s.heap.wf = true)
include hw

theorem SmallestFree.toNat_eq {id : Word} (hf : SmallestFree s id) : id.toNat = firstFree 1 s.heap.ids := by
  obtain ⟨hid, -, hfree, hbelow⟩ := hf
  rcases Nat.lt_trichotomy id.toNat (firstFree 1 s.heap.ids) with hlt | heq | hgt
  · exact absurd (Heap.isAllocated_of_lt_firstFree hw hid hlt) (Bool.eq_false_iff.mp hfree)
  · exact heq
  · obtain ⟨p, hp0, hp, hpf⟩ := Heap.exists_eq_firstFree hw hgt.le
    exact absurd (hbelow p hp0 (show p.toNat < id.toNat by omega)) (Bool.eq_false_iff.mp hpf)

theorem NoneFree.lt_firstFree (hn : NoneFree s) : s.cfg.idMax.toNat < firstFree 1 s.heap.ids := by
  by_contra hle
  obtain ⟨p, hp0, hp, hpf⟩ := Heap.exists_eq_firstFree hw (not_lt.mp hle)
  exact absurd (hn p hp0 (show p.toNat ≤ _ by omega)) (Bool.eq_false_iff.mp hpf)

end

theorem Heap.fits_iff (s : State) (n : Word) : s.heap.fits s.cfg n = true ↔ CapacityAllows s n := by
  rw [Heap.fits, CapacityAllows]
  cases s.cfg.capacity <;> simp

/-! ### ALLOC by the answer of the allocator -/

theorem exec_alloc_of_error {b : RegIdx} {s : State} {r : Reason} (e : s.heap.allocate s.cfg (s.reg b) = .error r)
    (a : RegIdx) : exec (.alloc a b) s = .next (takeFault r s) := by
  simp only [exec, execAlloc, e, conclude]

theorem exec_alloc_of_ok {b : RegIdx} {s : State} {id : Word} {h : Heap}
    (e : s.heap.allocate s.cfg (s.reg b) = .ok (id, h)) (a : RegIdx) :
    exec (.alloc a b) s = .next ((s.setHeap h).setReg a id).advance := by
  simp only [exec, execAlloc, e, conclude]

section
variable {s : State} (hw : s.heap.wf = true) {n : Word}
include hw

theorem allocate_of_noneFree (hn : NoneFree s) : s.heap.allocate s.cfg n = .error .outOfIdentifiers := by
  have hlt := hn.lt_firstFree hw
  rcases s.heap.allocate_cases s.cfg n with ⟨-, e⟩ | ⟨hle, -⟩ | ⟨hle, -⟩
  · exact e
  · omega
  · omega

theorem allocate_of_smallestFree {id : Word} (hf : SmallestFree s id) :
    (CapacityAllows s n →
      s.heap.allocate s.cfg n = .ok (id, s.heap.putSlot id (.allocated (Arr.zeros n)))) ∧
    (¬ CapacityAllows s n → s.heap.allocate s.cfg n = .error .outOfMemory) := by
  have hid := hf.toNat_eq hw
  have hmax : id.toNat ≤ s.cfg.idMax.toNat := hf.2.1
  rw [← Heap.fits_iff]
  rcases s.heap.allocate_cases s.cfg n with ⟨hlt, -⟩ | ⟨-, hfits, e⟩ | ⟨-, hfits, e⟩
  · omega
  · exact ⟨fun h => absurd (hfits.symm.trans h) nofun, fun _ => e⟩
  · rw [← hid, BitVec.ofNat_toNat, BitVec.setWidth_eq] at e
    exact ⟨fun _ => e, fun h => absurd hfits h⟩

end

/-- The new array reads zero at every offset below its length (R38). -/
theorem Heap.allocate_peek {h h' : Heap} {cfg : Config} {n id : Word} (e : h.allocate cfg n = .ok (id, h')) {off : Word}
    (ho : off < n) : h'.peek id off = some 0#32 := by
  have hs : h'.idState id = .allocated (Arr.zeros n) := (Heap.allocate_idState e id).trans (if_pos rfl)
  exact Heap.peek_some.mpr ⟨_, Heap.arr?_some.mpr (.inr hs), ho, (Arr.zeros_read n off).symm⟩

theorem Heap.allocate_idState_other {h h' : Heap} {cfg : Config} {n id : Word} (e : h.allocate cfg n = .ok (id, h'))
    {q : Word} (hq : q ≠ id) : h'.idState q = h.idState q :=
  (Heap.allocate_idState e q).trans (if_neg hq)

/-- Settles O19: on a canonical heap the scan finds the smallest free identifier, and the allocator's three answers are
the three clauses. -/
theorem allocReturnsSmallestFree : Obligations.AllocReturnsSmallestFree := by
  refine fun a b s hw => ⟨fun id hf hc => ?_, fun hn => exec_alloc_of_error (allocate_of_noneFree hw hn) a,
    fun id hf hc => exec_alloc_of_error ((allocate_of_smallestFree hw hf).2 hc) a⟩
  have e := (allocate_of_smallestFree hw hf).1 hc
  refine ⟨_, exec_alloc_of_ok e a, ?_, ⟨_, (Heap.allocate_idState e id).trans (if_pos rfl), Arr.zeros_len _⟩,
    fun off ho => Heap.allocate_peek e ho, fun q hq => Heap.allocate_idState_other e hq,
    fun q off hq => Heap.peek_of_idState (Heap.allocate_idState_other e hq), rfl, fun r hr => ?_,
    ⟨rfl, rfl⟩, ⟨rfl, rfl⟩, ⟨rfl, rfl⟩⟩
  · rw [State.advance_reg, State.setReg_reg_same]
  · rw [State.advance_reg, State.setReg_reg_other _ _ hr, State.setHeap_reg]

/-! ### ABANDON by the answer of the heap, and what a stale identifier is good for -/

theorem exec_abandon_of_ok {c : RegIdx} {s : State} {h : Heap} (e : s.heap.abandon (s.reg c) = .ok h) :
    exec (.abandon c) s = .next (s.setHeap h).advance := by
  simp only [exec, execAbandon, e, conclude]

theorem exec_abandon_of_error {c : RegIdx} {s : State} {r : Reason} (e : s.heap.abandon (s.reg c) = .error r) :
    exec (.abandon c) s = .next (takeFault r s) := by
  simp only [exec, execAbandon, e, conclude]

theorem exec_loadprog_of_absent {b : RegIdx} {s : State} (hp : s.heap.present (s.reg b) = false) (c : RegIdx) :
    exec (.loadprog b c) s = .next (takeFault .invalidArray s) := by
  rw [exec, execLoadprog, hp]
  rfl

theorem cycle_of_fetch_error {s : State} {r : Reason} (e : s.heap.fetch s.active s.pc = .error r) :
    cycle s = .next (takeFault r s) := by
  simp only [cycle, currentInstr, e]

theorem Heap.abandon_of_not_allocated {h : Heap} {id : Word} (hn : h.isAllocated id = false) :
    h.abandon id = .error .invalidArray := by
  cases e : h.abandon id with
  | ok h' =>
    rw [Heap.isAllocated_iff.mpr (Heap.abandon_ok.mp e).1] at hn
    contradiction
  | error r => rw [Heap.abandon_error e]

/-- Settles O20: the abandoned identifier is absent, so the check of each later use of it fails. -/
theorem abandonFreesTheArray : Obligations.AbandonFreesTheArray := by
  refine fun c s => ⟨fun a b => decode_standardWord (op := .abandon) rfl nofun rfl, fun hal => ?_,
    fun hn => exec_abandon_of_error (Heap.abandon_of_not_allocated hn)⟩
  obtain ⟨h, e⟩ : ∃ h, s.heap.abandon (s.reg c) = .ok h :=
    ⟨_, Heap.abandon_ok.mpr ⟨Heap.isAllocated_iff.mp hal, rfl⟩⟩
  have hfreed : h.idState (s.reg c) = .freed := (Heap.abandon_idState e _).trans (if_pos rfl)
  have hother : ∀ q, q ≠ s.reg c → h.idState q = s.heap.idState q := fun q hq =>
    (Heap.abandon_idState e q).trans (if_neg hq)
  have habsent : h.arr? (s.reg c) = none := Heap.arr?_none.mpr (.inr hfreed)
  have hpresent := Heap.present_eq_false.mpr habsent
  refine ⟨_, exec_abandon_of_ok e, hfreed, fun off => ?_, hother, fun q off hq => Heap.peek_of_idState (hother q hq),
    fun d e => ⟨?aidx, ?amend, ?loadprog, ?abandon⟩, fun hact => ?cycle, rfl, onlyMemoryAndPc_setHeap_advance h s⟩
  case aidx => exact exec_aidx_of_checked_error (Heap.checked_of_absent hpresent _) d
  case amend => exact exec_amend_of_checked_error (Heap.checked_of_absent hpresent _) e
  case loadprog => exact exec_loadprog_of_absent hpresent d
  case abandon => exact exec_abandon_of_error (Heap.abandon_of_absent habsent)
  case cycle => exact cycle_of_fetch_error (Heap.fetch_of_absent (hact ▸ habsent) _)
  simp only [State.advance_heap, State.setHeap_heap, Heap.peek, habsent]

/-- An abandoned identifier is again the smallest free one, where it was before its allocation. -/
theorem SmallestFree.of_idState {s t : State} {id : Word} (hf : SmallestFree s id) (hcfg : t.cfg = s.cfg)
    (hid : t.heap.idState id = .freed) (hother : ∀ q, q ≠ id → t.heap.idState q = s.heap.idState q) :
    SmallestFree t id := by
  obtain ⟨hne, hmax, -, hbelow⟩ := hf
  refine ⟨hne, hcfg ▸ hmax, by rw [Heap.isAllocated, hid], fun q hq hlt => ?_⟩
  rw [Heap.isAllocated, hother q (BitVec.ne_of_lt hlt)]
  exact hbelow q hq hlt

theorem CapacityAllows.of_unbounded {s : State} (h : s.cfg.capacity = none) (n : Word) : CapacityAllows s n :=
  fun _ hc => absurd (h.symm.trans hc) nofun

/-- Settles O21: after the ABANDON the identifier is the smallest free one again, so the second ALLOC answers it. -/
theorem abandonedIdentifierIsReused : Obligations.AbandonedIdentifierIsReused := by
  intro a b d e s id hw hcap hf
  obtain ⟨t, ht, hreg, ⟨arr, hal, -⟩, -, hst, -, -, -, -, -, hcfg, -⟩ :=
    (allocReturnsSmallestFree a b s hw).1 id hf (.of_unbounded hcap _)
  obtain ⟨u, hu, hfreed, -, htu, -, -, -, -, -, -, -, hcfg', -⟩ :=
    (abandonFreesTheArray a t).2.1 (Heap.isAllocated_iff.mpr ⟨arr, hreg ▸ hal⟩)
  rw [hreg] at hfreed htu
  have hsu : ∀ q, q ≠ id → u.heap.idState q = s.heap.idState q := fun q hq => (htu q hq).trans (hst q hq)
  have hucfg : u.cfg = s.cfg := hcfg'.trans hcfg
  have huw : u.heap.wf = true := (exec_effect hu).heap_wf ((exec_effect ht).heap_wf hw)
  obtain ⟨v, hv, hreg', -, hzero, huv, -⟩ := (allocReturnsSmallestFree d e u huw).1 id
    (hf.of_idState hucfg hfreed hsu) (.of_unbounded (hucfg ▸ hcap) _)
  exact ⟨t, u, v, ht, hu, hv, hreg, hreg', hzero, fun q hq => (huv q hq).trans (hsu q hq)⟩

end Sys2Proof.Machine

/-! ## Control (46_control.md): HALT and LOADPROG -/

namespace Sys2Proof.Machine

/-- Settles O27: HALT is `advance` and `halt`, and a step of the halted machine lets the sample of the reset input
pass. -/
theorem haltStopsTheMachine : Obligations.HaltStopsTheMachine :=
  fun s => ⟨fun _ _ _ => decode_standardWord (op := .halt) rfl nofun rfl,
    s.advance.halt, rfl, rfl, rfl, rfl, fun _ => rfl, sameMemory_of_heap_eq rfl, ⟨rfl, rfl⟩, ⟨rfl, rfl⟩,
    fun hr => step_of_terminal hr (.inl rfl)⟩

theorem exec_loadprog_of_present {b : RegIdx} {s : State} (hp : s.heap.present (s.reg b) = true) (c : RegIdx) :
    exec (.loadprog b c) s = .next (s.jump (s.reg b) (s.reg c)) := by
  rw [exec, execLoadprog, if_pos hp, conclude]

/-- Settles O28: LOADPROG is a jump where the identifier is present, as array 0 always is, and a fault elsewhere. -/
theorem loadprogJumpsExactly : Obligations.LoadprogJumpsExactly := by
  refine fun b c s => ⟨fun hp => ?_, fun h0 => ?_, fun hp => exec_loadprog_of_absent hp c⟩
  · exact ⟨_, exec_loadprog_of_present hp c, rfl, rfl, rfl, fun _ => rfl, sameMemory_of_heap_eq rfl, ⟨rfl, rfl⟩,
      ⟨rfl, rfl⟩⟩
  · rw [h0]
    exact s.heap.present_zero

end Sys2Proof.Machine

/-! ## The execution cycle (40_execution_cycle.md): fetch, decode, execute -/

namespace Sys2Proof.Machine

/-! ### The cycle by the answer of its fetch -/

theorem cycle_of_currentInstr {s : State} {i : Instr} (h : currentInstr s = .ok i) : cycle s = exec i s := by
  rw [cycle, h]

theorem currentInstr_of_fetch {s : State} {w : Word} {i : Instr} (hf : s.heap.fetch s.active s.pc = .ok w)
    (hd : decode w = .ok i) : currentInstr s = .ok i := by
  simp only [currentInstr, hf, hd]

/-- Settles O29: the sample of the reset input is no part of the fetch. -/
theorem stepRunsTheDecodedInstruction : Obligations.StepRunsTheDecodedInstruction := by
  intro s w i hr hs hf hd _
  rw [step_of_running hr hs]
  exact cycle_of_currentInstr (currentInstr_of_fetch (s := s.tickReset) hf hd)

/-- Settles O30: both are answers of the fetch, and a fetch's fault is all its cycle does. -/
theorem fetchFaultsEndTheRun : Obligations.FetchFaultsEndTheRun := by
  refine fun s hr hs => ⟨fun hp => ?_, fun arr ha ho => ?_⟩
  · rw [step_of_running hr hs]
    exact cycle_of_fetch_error (s := s.tickReset) (Heap.fetch_of_absent (Heap.present_eq_false.mp hp) _)
  · rw [step_of_running hr hs]
    exact cycle_of_fetch_error (s := s.tickReset) (Heap.fetch_of_len_le ha ho)

/-- Settles O36: a fetched offset is below a length, so it is not the largest Word. -/
theorem advancedPcDoesNotWrap : Obligations.AdvancedPcDoesNotWrap := by
  intro s w hf
  obtain ⟨a, -, hlt, -⟩ := Heap.fetch_ok.mp hf
  refine toNat_add_one fun hpc => ?_
  have hlt' : s.pc.toNat < a.len.toNat := hlt
  have hmax : s.pc.toNat = 2 ^ 32 - 1 := congrArg BitVec.toNat hpc
  have hlen := a.len.isLt
  omega

/-! ### The status (10_state.md section 3) -/

theorem loadTransaction_status {s t : State} (hs : s.status = .idle) (h : loadTransaction s = .next t) :
    t.status = .idle ∨ t.status = .running := by
  rcases loadTransaction_cases h with rfl | ⟨w, a, -, rfl⟩ | ⟨bytes, rfl⟩ | rfl
  · exact .inl hs
  · exact .inl hs
  · exact .inl hs
  · exact .inr rfl

/-- Settles O32: a cycle halts by HALT alone (`Effect.status_cases`), and only the load port and the cycle touch the
status. -/
theorem statusTransitions : Obligations.StatusTransitions := by
  refine fun s t hr h => ⟨fun hs => ?_, fun hs => ?_, fun hs hi => ?_, fun hs => ?_, fun r hs => ?_⟩
  · rw [step_of_idle hr hs] at h
    exact loadTransaction_status (s := s.tickReset) hs h
  · rw [step_of_running hr hs] at h
    rcases cycle_cases h with ⟨r, -, rfl⟩ | ⟨i, hi, he⟩
    · exact .inr (.inl ⟨r, rfl⟩)
    · rcases (exec_effect he).status_cases with ⟨r, -, rfl⟩ | ⟨rfl, rfl⟩ | hst
      · exact .inr (.inl ⟨r, rfl⟩)
      · exact .inr (.inr ⟨rfl, hi⟩)
      · exact .inl (hst.trans hs)
  · rw [step_of_running hr hs, cycle_of_currentInstr (s := s.tickReset) hi] at h
    injection h with h
    rw [← h, State.halt_status]
  · rw [step_of_terminal hr (.inl hs)] at h
    injection h with h
    exact h.symm
  · rw [step_of_terminal hr (.inr ⟨r, hs⟩)] at h
    injection h with h
    exact h.symm

/-! ### What one instruction may move, write and raise -/

/-- Settles O33: of the effects an instruction can have, only a jump sets `active`, and those that do not advance `pc` are
a fault and the two holds. -/
theorem onlyLoadprogRedirects : Obligations.OnlyLoadprogRedirects := by
  intro i s t _ h hne
  cases exec_effect h with
  | jumped b c _ => exact absurd rfl (hne b c)
  | faulted i r _ => exact ⟨rfl, .inr ⟨rfl, .inl ⟨r, rfl⟩⟩⟩
  | inHeld c ho => exact ⟨rfl, .inr ⟨rfl, .inr (.inl ⟨c, rfl, ho⟩)⟩⟩
  | outHeld c hr => exact ⟨rfl, .inr ⟨rfl, .inr (.inr ⟨c, rfl, hr⟩)⟩⟩
  | wrote | kept | stored | halted | allocated | abandoned | emitted | byteRead | endRead => exact ⟨rfl, .inl rfl⟩

theorem Effect.reg_of_ne_destination {i : Instr} {s t : State} {r : RegIdx} (e : Effect s i t)
    (hr : instrDestination i ≠ some r) : t.reg r = s.reg r := by
  have ne : ∀ {a : RegIdx}, instrDestination i = some a → r ≠ a := by
    rintro a ha rfl
    exact hr ha
  cases e with
  | wrote i a v ha => exact State.setReg_reg_other s v (ne ha)
  | allocated a b id h => exact State.setReg_reg_other (s.setHeap h) id (ne rfl)
  | byteRead c b => exact State.setReg_reg_other s.tickIn.takeByte _ (ne rfl)
  | endRead c => exact State.setReg_reg_other s.tickIn _ (ne rfl)
  | faulted | kept | stored | halted | abandoned | emitted | outHeld | inHeld | jumped => rfl

/-- Settles O34: every register write of an effect is to the instruction's destination. -/
theorem onlyTheDestinationIsWritten : Obligations.OnlyTheDestinationIsWritten :=
  fun _ _ _ _ h hr => (exec_effect h).reg_of_ne_destination hr

/-- Settles O35: the one way an instruction makes a running machine a faulted one is a fault of its own
(`Effect.status_cases`). -/
theorem onlyTheNamedFaultsAreRaised : Obligations.OnlyTheNamedFaultsAreRaised := by
  intro i s t r hs h ht
  rcases (exec_effect h).status_cases with ⟨r', hr', rfl⟩ | ⟨-, rfl⟩ | hst
  · rw [takeFault_status, Status.faulted.injEq] at ht
    exact ht ▸ hr'
  · contradiction
  · rw [hst, hs] at ht
    contradiction

end Sys2Proof.Machine

/-! ## Reset and the load port (70_reset_and_hazards.md) -/

namespace Sys2Proof.Machine

/-! ### The parameters of a run, and the values after reset -/

/-- Settles O42: reset keeps the parameters and the host's data, the load port touches neither the build nor a started
machine, and no instruction writes them (`cycle_input_cfg`). -/
theorem parametersAreConstant : Obligations.ParametersAreConstant := by
  intro s t h
  rcases step_cases h with ⟨-, rfl⟩ | ⟨-, hs, hl⟩ | ⟨-, -, hc⟩ | ⟨-, -, rfl⟩
  · exact ⟨rfl, fun _ => rfl⟩
  · refine ⟨?_, fun hne => absurd hs hne⟩
    rcases loadTransaction_cases hl with rfl | ⟨w, a, -, rfl⟩ | ⟨bytes, rfl⟩ | rfl <;> rfl
  · obtain ⟨hinput, hcfg⟩ := cycle_input_cfg hc
    exact ⟨hcfg, fun _ => hinput⟩
  · exact ⟨rfl, fun _ => rfl⟩

@[simp] theorem Heap.empty_peek_zero (off : Word) : Heap.empty.peek 0#32 off = none := by
  simp [Heap.peek, Heap.empty, Arr.empty]

/-- Settles O43: the step is `applyReset`, whose heap is empty. -/
theorem resetEstablishesResetValues : Obligations.ResetEstablishesResetValues :=
  fun s hr => ⟨_, step_of_reset hr, s.applyReset_reg, rfl, rfl, rfl, fun _ hid => Heap.idState_of_ne hid,
    Heap.empty_peek_zero, rfl, rfl⟩

/-! ### Words appended to array 0 (R152, R153) -/

theorem Arr.append_of_ne {a : Arr} (hl : a.len ≠ allOnes) (v : Word) :
    a.append v = some (({ a with len := a.len + 1#32 } : Arr).write a.len v) :=
  if_neg hl

section
variable {a a' : Arr} {v : Word} (h : a.append v = some a')
include h

theorem Arr.append_len : a'.len.toNat = a.len.toNat + 1 := by
  obtain ⟨hl, rfl⟩ := Arr.append_some h
  exact toNat_add_one hl

theorem Arr.append_read (off : Word) : a'.read off = if off = a.len then v else a.read off := by
  obtain ⟨-, rfl⟩ := Arr.append_some h
  exact Arr.write_read _ _ _ _

theorem Arr.append_read_of_lt {off : Word} (ho : off.toNat < a.len.toNat) : a'.read off = a.read off :=
  (Arr.append_read h off).trans (if_neg fun heq => (heq ▸ ho).false)

end

/-- All the words fit, each after the last, and what was there stays. -/
theorem Arr.appendAll_spec (words : List Word) (a : Arr) (hn : a.len.toNat + words.length < 2 ^ 32) :
    ∃ a', a.appendAll words = some a' ∧ a'.len.toNat = a.len.toNat + words.length ∧
      (∀ off : Word, off.toNat < a.len.toNat → a'.read off = a.read off) ∧
      ∀ (k : Nat) (hk : k < words.length), a'.read (BitVec.ofNat 32 (a.len.toNat + k)) = words[k] := by
  induction words generalizing a with
  | nil => exact ⟨a, rfl, rfl, fun _ _ => rfl, nofun⟩
  | cons w ws ih =>
    rw [List.length_cons] at hn
    have hl : a.len ≠ allOnes := fun hl => by
      have : a.len.toNat = 2 ^ 32 - 1 := congrArg BitVec.toNat hl
      omega
    obtain ⟨a₁, h₁⟩ : ∃ a₁, a.append w = some a₁ := ⟨_, Arr.append_of_ne hl w⟩
    have hlen₁ := Arr.append_len h₁
    obtain ⟨a', h', hlen', hold, hnew⟩ := ih a₁ (by omega)
    refine ⟨a', by rw [Arr.appendAll, h₁]; exact h', by rw [List.length_cons]; omega, fun off ho => ?_, fun k hk => ?_⟩
    · rw [hold off (by omega), Arr.append_read_of_lt h₁ ho]
    · cases k with
      | zero =>
        rw [Nat.add_zero, BitVec.ofNat_toNat, BitVec.setWidth_eq, hold _ (by omega), Arr.append_read h₁, if_pos rfl,
          List.getElem_cons_zero]
      | succ k =>
        rw [List.length_cons] at hk
        rw [List.getElem_cons_succ, ← hnew k (by omega), hlen₁, Nat.add_right_comm, Nat.add_assoc]

/-! ### The transactions of a held machine -/

theorem State.tickReset_of_nil {s : State} (hr : s.env.resetIn = []) : s.tickReset = s := by
  rw [State.tickReset, hr, List.tail_nil, ← hr]

theorem run_succ_of_step {s t : State} (n : Nat) (h : step s = .next t) :
    Sys2Proof.core.run (n + 1) s = Sys2Proof.core.run n t := by
  have h' : Sys2Proof.core.step s = .next t := h
  simp only [Host.Core.run, h']

section
variable {s : State} (hs : s.status = .idle) (hr : s.env.resetIn = [])
include hs hr

theorem step_of_load : step s = loadTransaction s := by
  rw [step_of_idle (by rw [State.resetAsserted, hr]; rfl) hs, State.tickReset_of_nil hr]

theorem step_of_load_start {l : List LoadAct} (hl : s.env.load = .start :: l) :
    step s = .next { s.tickLoad with status := .running } := by
  rw [step_of_load hs hr, loadTransaction, hl]
  rfl

theorem step_of_load_word {l : List LoadAct} {w : Word} {a : Arr} (hl : s.env.load = .word w :: l)
    (ha : s.heap.prog.append w = some a) : step s = .next (s.tickLoad.setHeap (s.heap.setProg a)) := by
  rw [step_of_load hs hr, loadTransaction, hl]
  simp only [List.headD_cons, ha]

end

/-- The words handed over, then `start`: array 0 is what they append to, and the machine runs. -/
theorem run_load (words : List Word) {l : List LoadAct} {s : State} {a : Arr} (hs : s.status = .idle)
    (hr : s.env.resetIn = []) (hl : s.env.load = words.map LoadAct.word ++ .start :: l)
    (ha : s.heap.prog.appendAll words = some a) :
    Sys2Proof.core.run (words.length + 1) s =
      .next { s with status := .running, heap := s.heap.setProg a, env := { s.env with load := l } } := by
  induction words generalizing s with
  | nil =>
    rw [List.length_nil, run_succ_of_step 0 (step_of_load_start hs hr hl)]
    obtain rfl : s.heap.prog = a := Option.some.inj ha
    rw [State.tickLoad, hl]
    rfl
  | cons w ws ih =>
    rw [Arr.appendAll] at ha
    cases h₁ : s.heap.prog.append w with
    | none => simp [h₁] at ha
    | some a₁ =>
      rw [h₁] at ha
      rw [List.length_cons, run_succ_of_step _ (step_of_load_word hs hr hl h₁),
        ih (s := s.tickLoad.setHeap (s.heap.setProg a₁)) hs hr
          (by rw [State.setHeap_env, State.tickLoad_env, hl]; rfl) ha]
      rfl

/-- Settles O44: the run is `run_load` from the empty array 0, and the array is the one `launch` builds. -/
theorem loadPortDeliversTheProgram : Obligations.LoadPortDeliversTheProgram := by
  intro words cfg env hn hr
  obtain ⟨a, ha, hlen, -, hread⟩ := Arr.appendAll_spec words Arr.empty (by simpa [Arr.empty] using hn)
  have hlen' : a.len.toNat = words.length := by simpa [Arr.empty] using hlen
  refine ⟨_, run_load words rfl hr rfl ha, by rw [launch, ha]; rfl, rfl, rfl, rfl, hlen', fun k hk => ?_⟩
  refine Heap.peek_some.mpr ⟨a, rfl, ?_, ?_⟩
  · show (BitVec.ofNat 32 k).toNat < a.len.toNat
    rw [BitVec.toNat_ofNat, Nat.mod_eq_of_lt (hk.trans hn)]
    omega
  · rw [← hread k hk]
    simp [Arr.empty]

theorem Heap.setProg_idState (h : Heap) (a : Arr) {id : Word} (hid : id ≠ 0#32) :
    (h.setProg a).idState id = h.idState id := by
  rw [Heap.idState_of_ne hid, Heap.idState_of_ne hid, Heap.setProg_ids]

/-- An appended Word hides nothing that array 0 showed. -/
theorem Heap.setProg_append_peek {h : Heap} {a : Arr} {w off : Word} (ha : h.prog.append w = some a)
    (ho : off < h.prog.len) : (h.setProg a).peek 0#32 off = h.peek 0#32 off := by
  have ho' : off.toNat < h.prog.len.toNat := ho
  have hoa : off < a.len := show off.toNat < a.len.toNat by rw [Arr.append_len ha]; omega
  simp only [Heap.peek, Heap.arr?_zero, Heap.setProg_prog, if_pos ho, if_pos hoa, Arr.append_read_of_lt ha ho']

/-- Settles O46: of the transactions of the load port, only a word touches the heap, and it appends to array 0. -/
theorem heldMachineOnlyLoads : Obligations.HeldMachineOnlyLoads := by
  intro s t hr hs h
  rw [step_of_idle hr hs] at h
  rcases loadTransaction_cases h with rfl | ⟨w, a, ha, rfl⟩ | ⟨bytes, rfl⟩ | rfl
  · exact ⟨fun _ => rfl, rfl, rfl, ⟨rfl, rfl⟩, rfl, fun _ _ => rfl, fun _ _ => rfl⟩
  · exact ⟨fun _ => rfl, rfl, rfl, ⟨rfl, rfl⟩, rfl, fun _ hid => s.heap.setProg_idState a hid,
      fun _ ho => Heap.setProg_append_peek ha ho⟩
  · exact ⟨fun _ => rfl, rfl, rfl, ⟨rfl, rfl⟩, rfl, fun _ _ => rfl, fun _ _ => rfl⟩
  · exact ⟨fun _ => rfl, rfl, rfl, ⟨rfl, rfl⟩, rfl, fun _ _ => rfl, fun _ _ => rfl⟩

/-! ### After the start the load port is dead (D22) -/

/-- The state with another script for the load port. -/
def State.withLoad (s : State) (l : List LoadAct) : State := { s with env := { s.env with load := l } }

section
variable (s : State) (l : List LoadAct)

@[simp] theorem State.withLoad_heap : (s.withLoad l).heap = s.heap := rfl
@[simp] theorem State.withLoad_cfg : (s.withLoad l).cfg = s.cfg := rfl
@[simp] theorem State.withLoad_reg (i : RegIdx) : (s.withLoad l).reg i = s.reg i := rfl
@[simp] theorem State.withLoad_inOffer : (s.withLoad l).inOffer = s.inOffer := rfl

end

theorem conclude_withLoad {s t : State} {l : List LoadAct} {e : Except Reason State} (h : conclude s e = .next t) :
    conclude (s.withLoad l) (e.map (·.withLoad l)) = .next (t.withLoad l) := by
  rcases conclude_next h with rfl | ⟨r, rfl, rfl⟩ <;> rfl

theorem exec_withLoad {i : Instr} {s t : State} (l : List LoadAct) (h : exec i s = .next t) :
    exec i (s.withLoad l) = .next (t.withLoad l) := by
  cases i with
  | aidx | amend | alloc | abandon =>
    rw [← conclude_withLoad h]
    refine congrArg (conclude _) ?_
    simp only [effectiveAddress, State.withLoad_heap, State.withLoad_cfg, State.withLoad_reg]
    split <;> rfl
  | div | mod | loadprog =>
    rw [← conclude_withLoad h, apply_ite (Except.map _)]
    rfl
  | cmov =>
    injection h with h
    rw [← h, apply_ite (State.withLoad · l)]
    rfl
  | out =>
    injection h with h
    rw [← h, apply_ite (State.withLoad · l)]
    rfl
  | inp =>
    injection h with h
    rw [← h, exec, execInp, State.withLoad_inOffer]
    split <;> rfl
  | add | mul | nand | sub | halt | ldi =>
    injection h with h
    rw [← h]
    rfl

theorem cycle_withLoad {s t : State} (l : List LoadAct) (h : cycle s = .next t) :
    cycle (s.withLoad l) = .next (t.withLoad l) := by
  have hcur : currentInstr (s.withLoad l) = currentInstr s := rfl
  rcases cycle_cases h with ⟨r, hr, rfl⟩ | ⟨i, hi, he⟩
  · rw [cycle, hcur, hr]
    rfl
  · rw [cycle_of_currentInstr (hcur.trans hi)]
    exact exec_withLoad l he

/-- Settles O45: the load port's script is read by a held machine's transaction only. -/
theorem loadPortIsDeadAfterStart : Obligations.LoadPortIsDeadAfterStart := by
  intro s t l hs h
  change step (s.withLoad l) = .next (t.withLoad l)
  rcases step_cases h with ⟨hr, rfl⟩ | ⟨-, hidle, -⟩ | ⟨hr, hrun, hc⟩ | ⟨hr, hterm, rfl⟩
  · exact step_of_reset (s := s.withLoad l) hr
  · contradiction
  · exact (step_of_running (s := s.withLoad l) hr hrun).trans (cycle_withLoad l hc)
  · exact step_of_terminal (s := s.withLoad l) hr hterm

end Sys2Proof.Machine

/-! ## The ports (10_state.md R17, 45_io.md R120, R121, 40_execution_cycle.md R88, 70_reset_and_hazards.md R161) -/

namespace Sys2Proof.Machine

/-! ### The status port -/

theorem Reason.code_injective : Function.Injective Reason.code := by
  intro r r' h
  cases r <;> cases r' <;> simp [Reason.code] at h ⊢

/-- A status code names its status, but for the reason of a fault. -/
theorem Status.eq_or_faulted_of_statusCode {p q : Status} (h : p.statusCode = q.statusCode) :
    p = q ∨ ∃ r r', p = .faulted r ∧ q = .faulted r' := by
  cases p <;> cases q <;> simp [Status.statusCode] at h ⊢

/-- Settles O47: a fault code tells the reasons apart, a status code the rest. -/
theorem statusPortIsFaithful : Obligations.StatusPortIsFaithful := by
  refine ⟨⟨rfl, rfl, fun _ => rfl, rfl⟩, ⟨rfl, rfl, rfl, rfl, rfl, rfl, rfl⟩, fun _ => rfl, fun p q hs hf => ?_,
    fun p => ?_⟩
  · rcases Status.eq_or_faulted_of_statusCode hs with rfl | ⟨r, r', rfl, rfl⟩
    · rfl
    · rw [Reason.code_injective hf]
  · cases p with
    | faulted r => exact ⟨fun h0 => absurd h0 r.code_ne_zero, fun hne => absurd rfl (hne r)⟩
    | idle | running | halted => exact ⟨fun _ => nofun, fun _ => rfl⟩

/-! ### The input and output ports -/

theorem executes_iff {s : State} {i : Instr} :
    executes s i = true ↔ s.resetAsserted = false ∧ s.status = .running ∧ currentInstr s = .ok i := by
  rw [executes]
  cases currentInstr s <;> simp [Except.toOption, and_assoc]

theorem inTake_iff {s : State} :
    inTake s = true ↔ ∃ c b, executes s (.inp c) = true ∧ s.inOffer = .byte b := by
  rw [inTake]
  cases s.inOffer <;> simp

/-- The machine executes one instruction at a time. -/
theorem executes_unique {s : State} {i j : Instr} (hi : executes s i = true) (hj : executes s j = true) : i = j := by
  obtain ⟨-, -, hi⟩ := executes_iff.mp hi
  obtain ⟨-, -, hj⟩ := executes_iff.mp hj
  exact Except.ok.inj (hi.symm.trans hj)

theorem find?_executes_out {s : State} {c : RegIdx} :
    (List.finRange 8).find? (fun d => executes s (.out d)) = some c ↔ executes s (.out c) = true := by
  refine ⟨List.find?_some (p := fun d => executes s (.out d)), fun hc => ?_⟩
  cases hd : (List.finRange 8).find? (fun d => executes s (.out d)) with
  | none => exact absurd hc (List.find?_eq_none.mp hd c (List.mem_finRange c))
  | some d =>
    have hout := executes_unique (List.find?_some (p := fun d => executes s (.out d)) hd) hc
    rw [Instr.out.inj hout]

theorem outOffer_eq_some_iff {s : State} {b : Byte} :
    outOffer s = some b ↔ ∃ c, executes s (.out c) = true ∧ lowByte (s.reg c) = b := by
  simp only [outOffer, Option.map_eq_some_iff, find?_executes_out]

/-- What an instruction consumes: IN a byte where one is offered, and no other any. -/
theorem Effect.inPos_cases {i : Instr} {s t : State} (e : Effect s i t) :
    t.inPos = s.inPos ∨ ∃ c b, i = .inp c ∧ s.inOffer = .byte b := by
  cases e with
  | byteRead c b hb => exact .inr ⟨c, b, rfl, hb⟩
  | faulted | wrote | kept | stored | halted | allocated | abandoned | emitted | outHeld | endRead | inHeld | jumped =>
    exact .inl rfl

/-- What an instruction emits: OUT the low byte of its register, and no other anything. -/
theorem Effect.out_cases {i : Instr} {s t : State} (e : Effect s i t) :
    t.out = s.out ∨ ∃ c, i = .out c ∧ t.out = s.out ++ [lowByte (s.reg c)] := by
  cases e with
  | emitted c => exact .inr ⟨c, rfl, rfl⟩
  | faulted | wrote | kept | stored | halted | allocated | abandoned | outHeld | byteRead | endRead | inHeld | jumped =>
    exact .inl rfl

/-- The step of a machine that executes `i` is `i`. -/
theorem step_of_executes {s : State} {i : Instr} (h : executes s i = true) : step s = exec i s.tickReset := by
  obtain ⟨hr, hs, hi⟩ := executes_iff.mp h
  rw [step_of_running hr hs]
  exact cycle_of_currentInstr (s := s.tickReset) hi

/-- A step that is no reset executes an instruction, or consumes and emits nothing. -/
theorem step_executes_or_quiet {s t : State} (hr : s.resetAsserted = false) (h : step s = .next t) :
    (∃ i, executes s i = true ∧ Effect s.tickReset i t) ∨ (t.inPos = s.inPos ∧ t.out = s.out) := by
  rcases step_cases h with ⟨hr', -⟩ | ⟨-, hs, hl⟩ | ⟨-, hs, hc⟩ | ⟨-, -, rfl⟩
  · rw [hr] at hr'
    contradiction
  · right
    rcases loadTransaction_cases hl with rfl | ⟨w, a, -, rfl⟩ | ⟨bytes, rfl⟩ | rfl <;> exact ⟨rfl, rfl⟩
  · rcases cycle_cases hc with ⟨r, -, rfl⟩ | ⟨i, hi, he⟩
    · exact .inr ⟨rfl, rfl⟩
    · exact .inl ⟨i, executes_iff.mpr ⟨hr, hs, hi⟩, exec_effect he⟩
  · exact .inr ⟨rfl, rfl⟩

/-- Settles O49: the signals show the executing IN or OUT, and only these consume (`Effect.inPos_cases`) and emit
(`Effect.out_cases`). -/
theorem portSignalsMatchTheStep : Obligations.PortSignalsMatchTheStep := by
  refine fun s t hr h => ⟨⟨fun hin => ?_, fun hpos => inTake_iff.mpr ?_⟩, fun b hb hready => ?_, fun hne => ?_⟩
  · obtain ⟨c, b, he, ho⟩ := inTake_iff.mp hin
    rw [step_of_executes he, exec_inp_of_byte (s := s.tickReset) ho] at h
    injection h with h
    rw [← h]
    rfl
  · rcases step_executes_or_quiet hr h with ⟨i, hi, e⟩ | ⟨hsame, -⟩
    · rcases e.inPos_cases with hsame | ⟨c, b, rfl, ho⟩
      · rw [State.tickReset_inPos] at hsame
        omega
      · exact ⟨c, b, hi, ho⟩
    · omega
  · obtain ⟨c, he, rfl⟩ := outOffer_eq_some_iff.mp hb
    rw [step_of_executes he, exec_out_of_sinkReady (s := s.tickReset) hready] at h
    injection h with h
    rw [← h]
    rfl
  · rcases step_executes_or_quiet hr h with ⟨i, hi, e⟩ | ⟨-, hsame⟩
    · rcases e.out_cases with hsame | ⟨c, rfl, hout⟩
      · exact absurd hsame hne
      · exact ⟨_, outOffer_eq_some_iff.mpr ⟨c, hi, rfl⟩, hout⟩
    · exact absurd hsame hne

/-! ### After the end -/

theorem Status.terminal_iff (p : Status) : p.terminal = true ↔ p = .halted ∨ ∃ r, p = .faulted r := by
  cases p <;> simp [Status.terminal]

theorem State.result_isSome (s : State) : s.result.isSome = s.status.terminal := by
  rw [State.result]
  cases s.status <;> rfl

theorem State.diagnostic_isSome (s : State) : s.diagnostic.isSome = s.status.terminal := by
  rw [State.diagnostic]
  cases s.status.terminal <;> rfl

theorem State.diagnostic_eq_some {s : State} {d : Diagnostic} (h : s.diagnostic = some d) :
    d = { x := s.x, pc := s.pc, active := s.active, heap := s.heap } := by
  rw [State.diagnostic] at h
  split at h
  · exact (Option.some.inj h).symm
  · contradiction

/-- Settles O50: both views are read off the terminal state, which a step without reset leaves but for the past sample
of the reset input. -/
theorem resultAfterTheEnd : Obligations.ResultAfterTheEnd := by
  refine fun s => ⟨s.result_isSome, s.diagnostic_isSome, fun hs => by rw [State.result, hs],
    fun r hs => by rw [State.result, hs], fun d hd => ?_, fun hterm hr => ?_⟩
  · rw [State.diagnostic_eq_some hd]
    exact ⟨rfl, rfl, rfl, rfl⟩
  · exact ⟨_, step_of_terminal hr ((Status.terminal_iff _).mp hterm), rfl, rfl⟩

end Sys2Proof.Machine
